-- ==== Sys2Proof/Word.lean ====
section
/-! DEFINITION. The word types of EPD-FAT (spec 00_scope.md R10, R11). -/

namespace Sys2Proof

/-- A byte of the bus, of a plane, or of the external memory (R10: 8-bit unsigned bit vector). -/
abbrev Byte := BitVec 8

/-- A framebuffer word (R10, R80: 16 bits, bit 0 the least significant). -/
abbrev Word := BitVec 16

/-- A command word as the host hands it over (30_encoding.md R87: 64 bits). -/
abbrev CommandWord := BitVec 64

/-- The level of a pin or the value of a one-bit field: `false` is 0, `true` is 1. -/
abbrev Level := Bool

end Sys2Proof
end

