-- ==== Sys2Proof/Syntax.lean ====
section
/-! DEFINITION. The operations of EPD-FAT: one constructor per row of spec/opcode_table.json, operands in the order of
30_encoding.md R90 and R96. The internal primitives HRUN and VRUN have no encoding and no constructor (R120, C9). -/

namespace Sys2Proof

/-- A colour (R83), in the order of the source's enumeration. -/
inductive Colour where
  | black
  | white
  | invert
  | highlight
  deriving DecidableEq, Repr

/-- A rotation (R84, 10_state.md R24), named by its angle. -/
inductive Rotation where
  | deg0
  | deg90
  | deg180
  | deg270
  deriving DecidableEq, Repr

/-- One operation with its operands. Coordinates and run lengths are integers (R10, R92); a payload count is a natural number
(R93) and the payload is the list of bytes in the order they are to be sent (R91). -/
inductive Instr where
  /-- `SETROT r` (40_geometry.md R110). -/
  | setrot (r : Rotation)
  /-- `HLINE x, y, w, c` (40_geometry.md R112). -/
  | hline (x y w : Int) (c : Colour)
  /-- `VLINE x, y, h, c` (40_geometry.md R113). -/
  | vline (x y h : Int) (c : Colour)
  /-- `DCMODE m`: 0 command, 1 data (41_framer.md R152). -/
  | dcmode (m : Level)
  /-- `SENDCMD code, ar` (41_framer.md R153). -/
  | sendcmd (code : Byte) (ar : Bool)
  /-- `SENDCMDDATA code, n, bytes` (41_framer.md R154). -/
  | sendcmddata (code : Byte) (n : Nat) (bytes : List Byte)
  /-- `SENDDATA n, bytes` (41_framer.md R156). -/
  | senddata (n : Nat) (bytes : List Byte)
  /-- `FLUSH` (42_flush.md R170). -/
  | flush
  /-- `INIT rp` (43_lifecycle.md R185). -/
  | init (rp : Bool)
  deriving DecidableEq, Repr

/-- What the host hands over for one operation (R87): the command word, and the bytes it presents on the payload port in the
order they are to be sent. -/
structure Command where
  word    : CommandWord
  payload : List Byte
  deriving DecidableEq, Repr

end Sys2Proof
end

