-- ==== Sys2Proof/WellFormed.lean ====
section
/-! DEFINITION. Well-formed operations: the operands a command word can carry (30_encoding.md R91 to R93). -/

namespace Sys2Proof

/-- R92: an integer that a 16-bit two's-complement field holds. -/
def fitsSigned16 (v : Int) : Bool := decide (-32768 ≤ v) && decide (v ≤ 32767)

/-- R93: a count that the 16-bit unsigned field holds. -/
def fitsCount (n : Nat) : Bool := decide (n ≤ 65535)

/-- R91: the payload is exactly `n` bytes. -/
def payloadIs (n : Nat) (bytes : List Byte) : Bool := decide (bytes.length = n)

/-- The operation has an encoding: each operand fits its field and the payload has the length its count says. -/
def Instr.wf : Instr → Bool
  | .setrot _ => true
  | .hline x y w _ => fitsSigned16 x && fitsSigned16 y && fitsSigned16 w
  | .vline x y h _ => fitsSigned16 x && fitsSigned16 y && fitsSigned16 h
  | .dcmode _ => true
  | .sendcmd _ _ => true
  | .sendcmddata _ n bytes => fitsCount n && payloadIs n bytes
  | .senddata n bytes => fitsCount n && payloadIs n bytes
  | .flush => true
  | .init _ => true

end Sys2Proof
end

