-- ==== Sys2Proof/Decode.lean ====
section
/-! DEFINITION. The decoder and the encoder of command words (30_encoding.md R83 to R95), written over the fields of R88.
Decoding never depends on the state of the block (R95). -/

namespace Sys2Proof

/-- Why a command is not decoded. -/
inductive DecodeError where
  /-- The command word is reserved (R94). -/
  | reservedEncoding
  /-- The payload does not have the length the operation takes (R91, R206). -/
  | badPayload
  deriving DecidableEq, Repr

/-! ## The command word format (R88) -/

/-- The eight fields of a command word, in the order and widths of R88. -/
structure Fields where
  op   : BitVec 4
  sel  : BitVec 2
  flg  : Level
  z    : Level
  code : Byte
  x    : BitVec 16
  y    : BitVec 16
  len  : BitVec 16
  deriving DecidableEq, Repr

/-- R88, read: OP is 63:60, SEL 59:58, FLG 57, Z 56, CODE 55:48, X 47:32, Y 31:16, LEN 15:0. -/
def Fields.ofWord (w : CommandWord) : Fields where
  op   := w.extractLsb' 60 4
  sel  := w.extractLsb' 58 2
  flg  := w.getLsbD 57
  z    := w.getLsbD 56
  code := w.extractLsb' 48 8
  x    := w.extractLsb' 32 16
  y    := w.extractLsb' 16 16
  len  := w.extractLsb' 0 16

/-- R88, written: the fields side by side, OP the most significant. -/
def Fields.toWord (f : Fields) : CommandWord :=
  f.op ++ f.sel ++ BitVec.ofBool f.flg ++ BitVec.ofBool f.z ++ f.code ++ f.x ++ f.y ++ f.len

/-- The operations an opcode selects (R89). -/
inductive Opcode where
  | setrot
  | hline
  | vline
  | dcmode
  | sendcmd
  | sendcmddata
  | senddata
  | flush
  | init
  deriving DecidableEq, Repr

/-- R89, read: the operation of an `OP` value; 0x0 and 0xA to 0xF are reserved. -/
def opcodeOf (op : BitVec 4) : Option Opcode :=
  match op.toNat with
  | 1 => some .setrot
  | 2 => some .hline
  | 3 => some .vline
  | 4 => some .dcmode
  | 5 => some .sendcmd
  | 6 => some .sendcmddata
  | 7 => some .senddata
  | 8 => some .flush
  | 9 => some .init
  | _ => none

/-- R89, written: the `OP` value of an operation. -/
def Opcode.bits : Opcode → BitVec 4
  | .setrot => 0x1
  | .hline => 0x2
  | .vline => 0x3
  | .dcmode => 0x4
  | .sendcmd => 0x5
  | .sendcmddata => 0x6
  | .senddata => 0x7
  | .flush => 0x8
  | .init => 0x9

/-- Which fields an operation uses. -/
structure FieldUse where
  sel  : Bool := false
  flg  : Bool := false
  code : Bool := false
  x    : Bool := false
  y    : Bool := false
  len  : Bool := false
  deriving DecidableEq, Repr

/-- The table of R90, row by row. -/
def Opcode.uses : Opcode → FieldUse
  | .setrot => { sel := true }
  | .hline => { sel := true, x := true, y := true, len := true }
  | .vline => { sel := true, x := true, y := true, len := true }
  | .dcmode => { flg := true }
  | .sendcmd => { flg := true, code := true }
  | .sendcmddata => { code := true, len := true }
  | .senddata => { len := true }
  | .flush => {}
  | .init => { flg := true }

/-- R94, second and third case: `Z` is 0 and "a field an operation does not use must be zero" (R88). -/
def Fields.unusedZero (u : FieldUse) (f : Fields) : Bool :=
  !f.z && (u.sel || f.sel == 0) && (u.flg || !f.flg) && (u.code || f.code == 0)
    && (u.x || f.x == 0) && (u.y || f.y == 0) && (u.len || f.len == 0)

/-- R93, R91: how many payload bytes follow the command word. Only SENDCMDDATA and SENDDATA take a payload (R87). -/
def Opcode.payloadCount (o : Opcode) (f : Fields) : Nat :=
  match o with
  | .sendcmddata => f.len.toNat
  | .senddata => f.len.toNat
  | .setrot => 0
  | .hline => 0
  | .vline => 0
  | .dcmode => 0
  | .sendcmd => 0
  | .flush => 0
  | .init => 0

/-- Whether a list has exactly `n` entries, decided in one walk along the list. -/
def hasLength : List Byte → Nat → Bool
  | [], 0 => true
  | [], _ + 1 => false
  | _ :: _, 0 => false
  | _ :: rest, n + 1 => hasLength rest n

/-! ## Operand codes -/

/-- R83: 0 BLACK, 1 WHITE, 2 INVERT, 3 HIGHLIGHT. -/
def colourOf (sel : BitVec 2) : Colour :=
  match sel.toNat with
  | 0 => .black
  | 1 => .white
  | 2 => .invert
  | _ => .highlight

/-- R83, written. -/
def Colour.bits : Colour → BitVec 2
  | .black => 0
  | .white => 1
  | .invert => 2
  | .highlight => 3

/-- R84: 0 is 0 degrees, 1 is 90, 2 is 180, 3 is 270. -/
def rotationOf (sel : BitVec 2) : Rotation :=
  match sel.toNat with
  | 0 => .deg0
  | 1 => .deg90
  | 2 => .deg180
  | _ => .deg270

/-- R84, written. -/
def Rotation.bits : Rotation → BitVec 2
  | .deg0 => 0
  | .deg90 => 1
  | .deg180 => 2
  | .deg270 => 3

/-- R92, `sext_16` of R13: the integer a signed field holds. -/
def sext16 (v : BitVec 16) : Int := v.toInt

/-- R92, written: the signed field that holds an integer. -/
def signed16 (v : Int) : BitVec 16 := BitVec.ofInt 16 v

/-! ## Decoding -/

/-- The operation of an opcode, with its operands taken from the fields of R90 and the payload of R91. -/
def Opcode.instr (o : Opcode) (f : Fields) (payload : List Byte) : Instr :=
  match o with
  | .setrot => .setrot (rotationOf f.sel)
  | .hline => .hline (sext16 f.x) (sext16 f.y) (sext16 f.len) (colourOf f.sel)
  | .vline => .vline (sext16 f.x) (sext16 f.y) (sext16 f.len) (colourOf f.sel)
  | .dcmode => .dcmode f.flg
  | .sendcmd => .sendcmd f.code f.flg
  | .sendcmddata => .sendcmddata f.code f.len.toNat payload
  | .senddata => .senddata f.len.toNat payload
  | .flush => .flush
  | .init => .init f.flg

/-- Decoding of fields and payload: a reserved word is rejected first, then a payload of the wrong length (log entry 10). -/
def decodeFields (f : Fields) (payload : List Byte) : Except DecodeError Instr :=
  match opcodeOf f.op with
  | none => .error .reservedEncoding
  | some o =>
    if f.unusedZero o.uses = false then .error .reservedEncoding
    else if hasLength payload (o.payloadCount f) = false then .error .badPayload
    else .ok (o.instr f payload)

/-- Decoding of what the host hands over: total, and it rejects by name (R91, R94, R206). -/
def decode (cmd : Command) : Except DecodeError Instr :=
  decodeFields (Fields.ofWord cmd.word) cmd.payload

/-! ## Encoding -/

/-- The opcode of an operation. -/
def Instr.opcode : Instr → Opcode
  | .setrot _ => .setrot
  | .hline _ _ _ _ => .hline
  | .vline _ _ _ _ => .vline
  | .dcmode _ => .dcmode
  | .sendcmd _ _ => .sendcmd
  | .sendcmddata _ _ _ => .sendcmddata
  | .senddata _ _ => .senddata
  | .flush => .flush
  | .init _ => .init

/-- A command word's fields with everything but `OP` zero. -/
def Opcode.blank (o : Opcode) : Fields where
  op   := o.bits
  sel  := 0
  flg  := false
  z    := false
  code := 0
  x    := 0
  y    := 0
  len  := 0

/-- The fields of an operation's command word (the table of R90). -/
def Instr.fields : Instr → Fields
  | .setrot r => { Opcode.blank .setrot with sel := r.bits }
  | .hline x y w c => { Opcode.blank .hline with sel := c.bits, x := signed16 x, y := signed16 y, len := signed16 w }
  | .vline x y h c => { Opcode.blank .vline with sel := c.bits, x := signed16 x, y := signed16 y, len := signed16 h }
  | .dcmode m => { Opcode.blank .dcmode with flg := m }
  | .sendcmd code ar => { Opcode.blank .sendcmd with flg := ar, code := code }
  | .sendcmddata code n _ => { Opcode.blank .sendcmddata with code := code, len := BitVec.ofNat 16 n }
  | .senddata n _ => { Opcode.blank .senddata with len := BitVec.ofNat 16 n }
  | .flush => Opcode.blank .flush
  | .init rp => { Opcode.blank .init with flg := rp }

/-- The payload of an operation (R90, last column). -/
def Instr.payload : Instr → List Byte
  | .setrot _ => []
  | .hline _ _ _ _ => []
  | .vline _ _ _ _ => []
  | .dcmode _ => []
  | .sendcmd _ _ => []
  | .sendcmddata _ _ bytes => bytes
  | .senddata _ bytes => bytes
  | .flush => []
  | .init _ => []

/-- What the host hands over for a well-formed operation. -/
def encode (i : Instr) : Command where
  word    := i.fields.toWord
  payload := i.payload

/-! ## The opcode table and its bit numbering -/

/-- One row of spec/opcode_table.json: a word belongs to the row when its bits under `mask` are those of `pattern`. -/
structure TableRow where
  opcode  : Opcode
  pattern : CommandWord
  mask    : CommandWord
  deriving DecidableEq, Repr

/-- spec/opcode_table.json, row by row ("match" and "mask"). The decoder does not use it: it is the table a statement compares
the decoder with. -/
def opcodeTable : List TableRow :=
  [ ⟨.setrot,      0x1000000000000000, 0xF3FFFFFFFFFFFFFF⟩,
    ⟨.hline,       0x2000000000000000, 0xF3FF000000000000⟩,
    ⟨.vline,       0x3000000000000000, 0xF3FF000000000000⟩,
    ⟨.dcmode,      0x4000000000000000, 0xFDFFFFFFFFFFFFFF⟩,
    ⟨.sendcmd,     0x5000000000000000, 0xFD00FFFFFFFFFFFF⟩,
    ⟨.sendcmddata, 0x6000000000000000, 0xFF00FFFFFFFF0000⟩,
    ⟨.senddata,    0x7000000000000000, 0xFFFFFFFFFFFF0000⟩,
    ⟨.flush,       0x8000000000000000, 0xFFFFFFFFFFFFFFFF⟩,
    ⟨.init,        0x9000000000000000, 0xFDFFFFFFFFFFFFFF⟩ ]

/-- The word carries the fixed bits of the row. -/
def TableRow.covers (r : TableRow) (w : CommandWord) : Bool := w &&& r.mask == r.pattern

/-- How many payload bytes the operation of a command word takes; 0 for a word of no operation. -/
def payloadCountOf (w : CommandWord) : Nat :=
  match opcodeOf (Fields.ofWord w).op with
  | none => 0
  | some o => o.payloadCount (Fields.ofWord w)

/-- The command whose bits are `w`, numbered as spec/opcode_table.json numbers them: bits 63 to 0 are the command word, and the
payload bytes the operation takes count on from bit 64. Every bit at or above `nbits` is 0. -/
def commandOfTableWord (nbits w : Nat) : Command :=
  let bits := w % 2 ^ nbits
  let word := BitVec.ofNat 64 bits
  { word := word,
    payload := (List.range (payloadCountOf word)).map fun t => BitVec.ofNat 8 (bits >>> (64 + 8 * t)) }

/-- The instruction the decoder reads from the command whose bits are `w`; none where it refuses. -/
def decodeTableWord (nbits w : Nat) : Option Instr :=
  match decode (commandOfTableWord nbits w) with
  | .ok i => some i
  | .error _ => none

/-! ## Pseudo-operations (R97) -/

/-- `PIXEL x, y, c` is `HLINE x, y, 1, c`. -/
def Instr.pixel (x y : Int) (c : Colour) : Instr := .hline x y 1 c

/-- `RELEASE` is `SENDDATA 0, []`. -/
def Instr.release : Instr := .senddata 0 []

/-- `PRESENT` is `FLUSH`. -/
def Instr.present : Instr := .flush

/-- `DISPLAY` is `FLUSH`. -/
def Instr.display : Instr := .flush

end Sys2Proof
end

