-- ==== Sys2Proof/Config.lean ====
section
/-! DEFINITION. The implementation parameters of the block (00_scope.md R6) and the values the spec leaves open.
What is computed from the parameters (R7) stands in Machine/Params.lean. -/

namespace Sys2Proof

/-- `STORE` (R6): where the framebuffer words live. -/
inductive StoreKind where
  | resident
  | external
  deriving DecidableEq, Repr

/-- `SPI_MODE` (R6, D35): clock polarity and phase of one byte transfer. OPEN; no rule depends on it. -/
structure SpiMode where
  clockPolarity : Level
  clockPhase    : Level
  deriving DecidableEq, Repr, Inhabited

/-- The parameters of R6, fixed when the block comes into existence (R220). `BUSY_TIMEOUT` is fixed to "none" by the
spec (D22) and therefore is no field. -/
structure Config where
  /-- `WIDTH`, the native panel width in pixels. -/
  width  : Nat
  /-- `HEIGHT`, the native panel height in pixels. -/
  height : Nat
  /-- `STORE`. -/
  store  : StoreKind
  /-- `EXT_BASE`, the byte address of framebuffer word 0 in the external memory. -/
  extBase : Nat
  /-- `PAGE_BYTES`, the size in bytes of one chunk read during a flush of an external framebuffer. -/
  pageBytes : Nat
  /-- `HAS_HL`: the panel has a highlight plane. -/
  hasHl : Bool
  /-- `CMD_BW`, the panel's black/white-plane write command. -/
  cmdBw : Byte
  /-- `CMD_HL`, the panel's highlight-plane write command, absent when there is no second plane address. -/
  cmdHl : Option Byte
  /-- `BUSY_ACTIVE_LEVEL`; no rule depends on it (R28: the spec uses the logical value). -/
  busyActiveLevel : Level
  /-- `SPI_MODE`; no rule depends on it (R86). -/
  spiMode : SpiMode
  deriving DecidableEq, Repr

/-- FREE VALUE. The content of framebuffer word `a` after reset: "unspecified: any 16-bit value, fixed once drawn at
reset" (R37, R221, D10). Log entry 2. -/
opaque Config.powerUpWord : Nat → Word

/-- FREE VALUE. What an unlisted byte of the external memory of `State.reset` reads as (R31, R37, D10). Log entry 3. -/
opaque Config.powerUpFill : Byte

/-- FREE VALUE. `CMD_BW` of `State.reset` (R6, D34: OPEN). Log entry 1. -/
opaque Config.openCmdBw : Byte

/-- FREE VALUE. The code in `CMD_HL` of `State.reset` (R6, D34: OPEN). Log entry 1. -/
opaque Config.openCmdHl : Byte

/-- FREE VALUE. `BUSY_ACTIVE_LEVEL` of `State.reset` (R6, D12: OPEN). Log entry 1. -/
opaque Config.openBusyActiveLevel : Level

/-- FREE VALUE. `SPI_MODE` of `State.reset` (R6, D35: OPEN). Log entry 1. -/
opaque Config.openSpiMode : SpiMode

/-- The parameters of `State.reset`. DESIGN CHOICE (log entry 1): the spec gives no parameter a value, and a machine that
can be run needs some. The dimensions are panel A of 95_test_vectors.md; `EXT_BASE` is the default of D16; the panel
command codes and the electrical parameters stay free. No statement about a draw or a flush rests on these values: each holds
for every configuration. -/
def Config.atReset : Config where
  width := 16
  height := 16
  store := .resident
  extBase := 0
  pageBytes := 2
  hasHl := true
  cmdBw := Config.openCmdBw
  cmdHl := some Config.openCmdHl
  busyActiveLevel := Config.openBusyActiveLevel
  spiMode := Config.openSpiMode

end Sys2Proof
end

