-- ==== Sys2Proof/Machine/Params.lean ====
section
/-! DEFINITION. What is computed from the parameters (00_scope.md R7) and the constraints on them (R6). -/

namespace Sys2Proof

/-- `STRIDE = floor(HEIGHT / 8)` (R7): words from one column to the next. -/
def Config.stride (c : Config) : Nat := c.height / 8

/-- `N = ceil(HEIGHT / 8) * WIDTH` (R7): words in the framebuffer. -/
def Config.words (c : Config) : Nat := (c.height + 7) / 8 * c.width

/-- R6: `PAGE_BYTES` is even and at least 2. -/
def Config.pageOk (c : Config) : Bool := decide (2 ≤ c.pageBytes) && decide (c.pageBytes % 2 = 0)

/-- The constraints of R6; D6: a configuration outside them is refused. `PAGE_BYTES` is a parameter only with an external
store. -/
def Config.wf (c : Config) : Bool :=
  decide (1 ≤ c.width) && decide (c.width ≤ 32767) && decide (1 ≤ c.height) && decide (c.height ≤ 32767)
    && (match c.store with | .resident => true | .external => c.pageOk)

end Sys2Proof
end

