-- ==== Sys2Proof/Machine/State.lean ====
section
/-! DEFINITION. The state of the machine (10_state.md R20 to R38), the reasons a step can stop (60_exceptions.md R202, R206),
and the state after reset (R37, R221). -/

namespace Sys2Proof.Machine

/-- The output pins (R13, R34). -/
inductive Pin where
  | cs
  | dc
  | rst
  deriving DecidableEq, Repr

/-- An event of the trace (R34). -/
inductive Event where
  /-- `Pin(P, v)`: a write of a pin latch, also one that leaves the level unchanged. -/
  | pin (p : Pin) (v : Level)
  /-- `Tx(b)`: one byte transferred on the bus. -/
  | tx (b : Byte)
  /-- `Delay(ms)`: a timed hold of at least `ms` milliseconds. -/
  | delay (ms : Nat)
  /-- `XmR16(b, v)`: a `read16` of byte address `b` that returned `v`. -/
  | xmR16 (b : Nat) (v : Word)
  /-- `XmW16(b, v)`: a `write16`. -/
  | xmW16 (b : Nat) (v : Word)
  /-- `XmR(b, n, bytes)`: a `read`. -/
  | xmR (b n : Nat) (bytes : List Byte)
  deriving DecidableEq, Repr

/-- Whether an operation is in progress between two steps. Only `INIT` can be, in its busy wait (43_lifecycle.md R188). -/
inductive Phase where
  | idle
  | initWait
  deriving DecidableEq, Repr

/-- The bytes of the external memory device (R31). Addresses are natural numbers. A byte that `cells` does not list reads as
`fill`; the canonical form is `Memory.wf` (Machine/Ops.lean). Log entry 3. -/
structure Memory where
  fill  : Byte
  cells : List Host.Cell
  deriving DecidableEq, Repr

/-- The state: R20's table, the trace, the busy wait, and the parameters and inputs of a step (R36). -/
structure State where
  /-- The parameters (R6, R36). -/
  cfg : Config
  /-- `ROT` (R24). -/
  rot : Rotation
  /-- `CS`, chip-select: 0 asserted, 1 released (R25). -/
  cs : Level
  /-- `DC`, data/command: 0 command mode, 1 data mode (R26). -/
  dc : Level
  /-- `RST`, the panel's reset line (R27). -/
  rst : Level
  /-- `IOEN`: INIT has configured the I/O direction (R29). -/
  ioen : Bool
  /-- `FB[0 .. N-1]` in index order; no entries when `STORE = external` (R30). -/
  fb : List Word
  /-- `XM`, the external memory's bytes; nothing listed when `STORE = resident` (R31). -/
  xm : Memory
  /-- `PAGEBUF[0 .. PAGE_BYTES-1]`; no entries when `STORE = resident` (R33). -/
  pagebuf : List Byte
  /-- The trace, oldest event first (R34). -/
  trace : List Event
  /-- The operation in progress (43_lifecycle.md R188). -/
  phase : Phase
  /-- `BUSY` as the block samples it: `true` is asserted (R28). An input. -/
  busy : Level
  /-- The levels the panel drives on `BUSY` at the steps to come (R28, R36). An input. -/
  busyFeed : List Level
  /-- The commands the host has still to hand over, the next one first (R22, R36). An input. -/
  commands : List Command
  deriving DecidableEq, Repr

/-- Why the machine would stop with a fault. -/
inductive Fault where
  /-- Raised by `fbRead`, `fbWrite` and the resident plane pass for a framebuffer word address that does not exist: "the spec
  gives such an access no meaning" (20_memory.md R59). Safe: no well-formed state reaches it. -/
  | frameAddress (a : Nat)
  deriving DecidableEq, Repr

/-- Why an input has no meaning (R206). -/
inductive Refusal where
  /-- Raised by `exec` for an instruction without a meaning; safe. No arm answers it in this model. -/
  | notModelled (mnemonic : String)
  /-- Raised by `step` for a reserved command word (30_encoding.md R94); safe. -/
  | reservedEncoding
  /-- Raised by `step`, and by the meanings of SENDCMDDATA and SENDDATA, for a payload whose length is not `CNT` (R91); safe. -/
  | badPayload
  /-- Raised by the framer operations and FLUSH while `IOEN = 0` (41_framer.md R157); safe. -/
  | ioNotConfigured
  /-- Raised by `step` for parameters outside the constraints of 00_scope.md R6, and by FLUSH for a page size outside them
  (D6); safe. -/
  | badConfiguration
  deriving DecidableEq, Repr

/-- The state right after reset of a machine with the given parameters and initial memory content, which "a model takes ... as
an argument" (70_reset_and_hazards.md R221). The inputs are arguments too, since the spec leaves them open (R28, R36): the level the
panel drives on `BUSY` at that moment, the levels it drives at the steps to come, and the commands the host hands over. -/
def State.resetWith (cfg : Config) (fb : List Word) (pagebuf : List Byte) (xm : Memory) (busy : Level) (busyFeed : List Level)
    (commands : List Command) : State where
  cfg := cfg
  rot := .deg0
  cs := true
  dc := true
  rst := true
  ioen := false
  fb := fb
  xm := xm
  pagebuf := pagebuf
  trace := []
  phase := .idle
  busy := busy
  busyFeed := busyFeed
  commands := commands

/-- The state right after reset (R37, R221) of the machine of `Config.atReset`: the framebuffer holds its free values and there is
no external memory. DESIGN CHOICE (log entry 6): BUSY is released and its feed is empty, so that from this state the panel never
moves BUSY; DESIGN CHOICE (log entry 5): the host has handed over nothing. The spec leaves all three open. -/
def State.reset : State :=
  State.resetWith Config.atReset ((List.range Config.atReset.words).map Config.powerUpWord) []
    { fill := Config.powerUpFill, cells := [] } false [] []

end Sys2Proof.Machine
end

