-- ==== Sys2Proof/Machine/Flags.lean ====
section
/-! DEFINITION. The block has no status flags, condition codes or predicates (10_state.md R23): no operation computes one. The
only one-bit condition an operation tests before it starts is the control flag IOEN (41_framer.md R157). -/

namespace Sys2Proof.Machine

/-- The outcome of an operation (60_exceptions.md R202). -/
abbrev Out := Host.Outcome State Fault Refusal

/-- R157: a framer operation or FLUSH runs when `IOEN = 1` and is refused otherwise. -/
def whenConfigured (s : State) (run : State → Out) : Out :=
  if s.ioen then run s else .refused .ioNotConfigured

end Sys2Proof.Machine
end

