-- ==== Sys2Proof/Machine/Operands.lean ====
section
/-! DEFINITION. The operand forms: byte order of a word, the colour rules (the bit-packer), the rotation transform, the clamp, and
the address translator that turns a native run into word accesses (20_memory.md R50 to R61, 40_geometry.md R111 to R135). -/

namespace Sys2Proof.Machine

/-! ## Words, bytes and planes -/

/-- `lo8(w) = w[7:0]` (R11): the black/white plane byte. -/
def lo8 (v : Word) : Byte := v.extractLsb' 0 8

/-- `hi8(w) = w[15:8]` (R11): the highlight plane byte. -/
def hi8 (v : Word) : Byte := v.extractLsb' 8 8

/-- The word whose high byte is `hi` and whose low byte is `lo` (R55: the byte at the lower address in bits 15..8). -/
def joinBytes (hi lo : Byte) : Word := hi ++ lo

/-- A layer of the framebuffer (R15). -/
inductive Plane where
  | bw
  | hl
  deriving DecidableEq, Repr

/-- The plane byte of a word (30_encoding.md R81). -/
def planeByte (p : Plane) (v : Word) : Byte :=
  match p with
  | .bw => lo8 v
  | .hl => hi8 v

/-- The bytes at even and at odd positions of a chunk: "odd-indexed bytes to the black/white command stream and even-indexed bytes
to the highlight-color command stream" (42_flush.md R174). -/
def deinterleave (p : Plane) : List Byte → List Byte
  | [] => []
  | [hi] => match p with | .bw => [] | .hl => [hi]
  | hi :: lo :: rest => (match p with | .bw => lo | .hl => hi) :: deinterleave p rest

/-- The eight data-out values of one byte transfer, in the order they are clocked out (41_framer.md R150, 30_encoding.md R86). -/
def bitsMsbFirst (b : Byte) : List Level := [7, 6, 5, 4, 3, 2, 1, 0].map b.getLsbD

/-! ## The colour rules -/

/-- `1 << k` in a word (R11). -/
def oneBit (k : Nat) : Word := 1#16 <<< k

/-- `ApplyBit(v, c, k)` (R116). -/
def applyBit (v : Word) (c : Colour) (k : Nat) : Word :=
  match c with
  | .black => v ||| oneBit (7 - k)
  | .white => v &&& ~~~(oneBit (7 - k))
  | .invert => v ^^^ oneBit (7 - k)
  | .highlight => v ||| oneBit (15 - k)

/-- `ApplyBlock(v, c)` (R117). -/
def applyBlock (v : Word) (c : Colour) : Word :=
  match c with
  | .black => v ||| 0x00FF#16
  | .white => v &&& 0xFF00#16
  | .invert => v ^^^ 0x00FF#16
  | .highlight => v ||| 0xFF00#16

/-- What one read-modify-write of a run touches in its word: one pixel, or the eight pixels of the word. -/
inductive Lanes where
  | pixel (k : Nat)
  | block
  deriving DecidableEq, Repr

/-- The new value of the word. -/
def applyLanes (c : Colour) (l : Lanes) (v : Word) : Word :=
  match l with
  | .pixel k => applyBit v c k
  | .block => applyBlock v c

/-- R111: `HIGHLIGHT` on a panel without the plane is dropped as a whole. -/
def highlightDropped (cfg : Config) (c : Colour) : Bool :=
  match c with
  | .black => false
  | .white => false
  | .invert => false
  | .highlight => !cfg.hasHl

/-! ## The rotation transform -/

/-- Which internal primitive draws a run (R115). -/
inductive Axis where
  | horizontal
  | vertical
  deriving DecidableEq, Repr

/-- A run: its axis, its start and its signed length. -/
structure Run where
  axis : Axis
  x    : Int
  y    : Int
  len  : Int
  deriving DecidableEq, Repr

/-- The other axis. -/
def Axis.other : Axis → Axis
  | .horizontal => .vertical
  | .vertical => .horizontal

/-- "axis-swap x↔y" (R114); the swap also sends the run to the opposite primitive (R115). -/
def Run.swap (r : Run) : Run := { r with axis := r.axis.other, x := r.y, y := r.x }

/-- `x = WIDTH-x-1` (R114). -/
def Run.reflectX (cfg : Config) (r : Run) : Run := { r with x := cfg.width - r.x - 1 }

/-- `y = HEIGHT-y-1` (R114). -/
def Run.reflectY (cfg : Config) (r : Run) : Run := { r with y := cfg.height - r.y - 1 }

/-- `x -= (len-1)` (R114). -/
def Run.backX (r : Run) : Run := { r with x := r.x - (r.len - 1) }

/-- `y -= (len-1)` (R114). -/
def Run.backY (r : Run) : Run := { r with y := r.y - (r.len - 1) }

/-- The transform of a horizontal-run request (R112, first column of R114); the steps of a cell from left to right. -/
def rotateHline (cfg : Config) (rot : Rotation) (x y w : Int) : Run :=
  let r : Run := { axis := .horizontal, x := x, y := y, len := w }
  match rot with
  | .deg0 => r
  | .deg90 => r.swap.reflectX cfg
  | .deg180 => ((r.reflectX cfg).reflectY cfg).backX
  | .deg270 => (r.swap.reflectY cfg).backY

/-- The transform of a vertical-run request (R113, second column of R114). -/
def rotateVline (cfg : Config) (rot : Rotation) (x y h : Int) : Run :=
  let r : Run := { axis := .vertical, x := x, y := y, len := h }
  match rot with
  | .deg0 => r
  | .deg90 => (r.swap.reflectX cfg).backX
  | .deg180 => ((r.reflectX cfg).reflectY cfg).backY
  | .deg270 => r.swap.reflectY cfg

/-! ## The clamp and the addresses -/

/-- The clamp of the run axis (R123, R127): the low edge first, then the high edge with the already clamped start (R204).
Answers the start and the length. -/
def clampSpan (bound start len : Int) : Int × Int :=
  let start' := if start < 0 then 0 else start
  let len' := if start < 0 then len + start else len
  (start', if bound < start' + len' then bound - start' else len')

/-- `WordAddr(x, y) = x * STRIDE + floor(y / 8)` (R50). -/
def wordAddr (cfg : Config) (x y : Nat) : Nat := x * cfg.stride + y / 8

/-- One read-modify-write: the framebuffer word and what it touches there. -/
structure Access where
  addr  : Nat
  lanes : Lanes
  deriving DecidableEq, Repr

/-- R124, R125: the `w` pixels of a clamped horizontal run, `addr` stepping by `STRIDE`, the row-in-word fixed. -/
def horizontalAccesses (cfg : Config) (x y w : Nat) : List Access :=
  (List.range w).map fun j => { addr := wordAddr cfg x y + j * cfg.stride, lanes := .pixel (y % 8) }

/-- R128 to R130: the whole blocks of a clamped vertical run, one word on each time, then the `h mod 8` bit operations of the
final partial block. The row-in-word of the start is used nowhere (R128, R131). -/
def verticalAccesses (cfg : Config) (x y h : Nat) : List Access :=
  ((List.range (h / 8)).map fun b => { addr := wordAddr cfg x y + b, lanes := .block })
    ++ ((List.range (h % 8)).map fun i => { addr := wordAddr cfg x y + h / 8, lanes := .pixel i })

/-- `HRUN(x, y, w, c)` up to its loop (R122 to R125). -/
def hrunAccesses (cfg : Config) (x y w : Int) : List Access :=
  if y < 0 ∨ (cfg.height : Int) ≤ y then []
  else
    let span := clampSpan cfg.width x w
    if span.2 ≤ 0 then [] else horizontalAccesses cfg span.1.toNat y.toNat span.2.toNat

/-- `VRUN(x, y, h, c)` up to its loops (R127 to R130). -/
def vrunAccesses (cfg : Config) (x y h : Int) : List Access :=
  if x < 0 ∨ (cfg.width : Int) ≤ x then []
  else
    let span := clampSpan cfg.height y h
    if span.2 ≤ 0 then [] else verticalAccesses cfg x.toNat span.1.toNat span.2.toNat

/-- The accesses of a native run, in the order they happen: the dispatch of R115. -/
def Run.accesses (cfg : Config) (r : Run) : List Access :=
  match r.axis with
  | .horizontal => hrunAccesses cfg r.x r.y r.len
  | .vertical => vrunAccesses cfg r.x r.y r.len

/-- The accesses of `HLINE x, y, w` under a rotation. -/
def hlineAccesses (cfg : Config) (rot : Rotation) (x y w : Int) : List Access :=
  (rotateHline cfg rot x y w).accesses cfg

/-- The accesses of `VLINE x, y, h` under a rotation. -/
def vlineAccesses (cfg : Config) (rot : Rotation) (x y h : Int) : List Access :=
  (rotateVline cfg rot x y h).accesses cfg

/-- Byte address of framebuffer word `a` in the external memory (R54). -/
def wordBase (cfg : Config) (a : Nat) : Nat := cfg.extBase + 2 * a

end Sys2Proof.Machine
end

