-- ==== Sys2Proof/Machine/Ops.lean ====
section
/-! DEFINITION. The named operations over state, memory and pins that the meanings share, in the spec's own primitives (00_scope.md
R13), and the acceptance of a command. The block takes no exception and returns from none (60_exceptions.md R200, R205), so
there is no operation for either. -/

namespace Sys2Proof.Machine

/-- Sequencing: the second operation runs on the state the first one leaves. -/
def andThen (o : Out) (k : State → Out) : Out :=
  match o with
  | .next s => k s
  | .fault f => .fault f
  | .refused r => .refused r

/-! ## Updates of one piece of state -/

def State.setRot (s : State) (r : Rotation) : State := { s with rot := r }
def State.setIoen (s : State) (v : Bool) : State := { s with ioen := v }
def State.setFb (s : State) (fb : List Word) : State := { s with fb := fb }
def State.setXm (s : State) (m : Memory) : State := { s with xm := m }
def State.setPagebuf (s : State) (p : List Byte) : State := { s with pagebuf := p }
def State.setPhase (s : State) (p : Phase) : State := { s with phase := p }
def State.setCommands (s : State) (q : List Command) : State := { s with commands := q }

/-- Append events to the trace, the first of them first (R34). -/
def State.emit (s : State) (es : List Event) : State := { s with trace := s.trace ++ es }

/-- The level of an output pin latch. -/
def State.latch (s : State) : Pin → Level
  | .cs => s.cs
  | .dc => s.dc
  | .rst => s.rst

/-- Write an output pin latch. -/
def State.setLatch (s : State) (p : Pin) (v : Level) : State :=
  match p with
  | .cs => { s with cs := v }
  | .dc => { s with dc := v }
  | .rst => { s with rst := v }

/-! ## Pins, transfers, delays -/

/-- `Pin(P, v)` (R13): write the latch, and record the write whether or not the level changes (R34). -/
def pin (p : Pin) (v : Level) (s : State) : State := (s.setLatch p v).emit [.pin p v]

/-- `Tx(b)` (R150). -/
def tx (b : Byte) (s : State) : State := s.emit [.tx b]

/-- One `Tx` for each byte, in order, with nothing between them (R155). -/
def txAll (bs : List Byte) (s : State) : State := s.emit (bs.map .tx)

/-- `Delay(ms)` (R187): "a model records the event and moves on". -/
def delay (ms : Nat) (s : State) : State := s.emit [.delay ms]

/-! ## The external memory -/

/-- The byte listed at an address. -/
def cellsRead : List Host.Cell → Nat → Option Byte
  | [], _ => none
  | (k, v) :: rest, a => if k = a then some v else cellsRead rest a

/-- The list with nothing at an address. -/
def cellsErase : List Host.Cell → Nat → List Host.Cell
  | [], _ => []
  | (k, v) :: rest, a => if k = a then rest else (k, v) :: cellsErase rest a

/-- The list with `b` at an address, addresses still rising. -/
def cellsInsert : List Host.Cell → Nat → Byte → List Host.Cell
  | [], a, b => [(a, b)]
  | (k, v) :: rest, a, b =>
    if a < k then (a, b) :: (k, v) :: rest
    else if k = a then (a, b) :: rest
    else (k, v) :: cellsInsert rest a b

/-- The canonical form: addresses strictly rising, and no entry equal to what an unlisted address reads as. -/
abbrev Memory.wf (m : Memory) : Prop :=
  m.cells.Pairwise (fun c d => c.1 < d.1) ∧ ∀ c ∈ m.cells, c.2 ≠ m.fill

/-- What an address that is not listed reads as (log entry 3). -/
def Memory.unlisted (m : Memory) (_ : Nat) : Byte := m.fill

/-- The byte at an address. -/
def Memory.read (m : Memory) (a : Nat) : Byte := (cellsRead m.cells a).getD (m.unlisted a)

/-- The memory with `b` at an address; writing what an unlisted address reads as removes the entry. -/
def Memory.write (m : Memory) (a : Nat) (b : Byte) : Memory :=
  { m with cells := if b = m.unlisted a then cellsErase m.cells a else cellsInsert m.cells a b }

/-- `n` bytes from address `b` upward, lowest address first (R58). -/
def Memory.readBytes (m : Memory) (b n : Nat) : List Byte := (List.range n).map fun t => m.read (b + t)

/-- The 16 bits at byte address `b`, the byte at `b` in bits 15..8 (R55). -/
def Memory.read16 (m : Memory) (b : Nat) : Word := joinBytes (m.read b) (m.read (b + 1))

/-- The memory with 16 bits written at byte address `b` (R55). -/
def Memory.write16 (m : Memory) (b : Nat) (v : Word) : Memory := (m.write b (hi8 v)).write (b + 1) (lo8 v)

/-- `XmRead16(b)` (R55): the word and the state with the event. -/
def xmRead16 (b : Nat) (s : State) : Word × State := (s.xm.read16 b, s.emit [.xmR16 b (s.xm.read16 b)])

/-- `XmWrite16(b, v)` (R55). -/
def xmWrite16 (b : Nat) (v : Word) (s : State) : State := (s.setXm (s.xm.write16 b v)).emit [.xmW16 b v]

/-- `XmRead(b, n)` (R58). -/
def xmRead (b n : Nat) (s : State) : List Byte × State :=
  (s.xm.readBytes b n, s.emit [.xmR b n (s.xm.readBytes b n)])

/-! ## The framebuffer store -/

/-- `FbRead(a)` (R52, R56); an address outside `[0, N)` has no meaning (R59). -/
def fbRead (a : Nat) (s : State) : Except Fault (Word × State) :=
  if a < s.cfg.words then
    match s.cfg.store with
    | .resident =>
      match s.fb[a]? with
      | some v => .ok (v, s)
      | none => .error (.frameAddress a)
    | .external => .ok (xmRead16 (wordBase s.cfg a) s)
  else .error (.frameAddress a)

/-- `FbWrite(a, v)` (R53, R57). -/
def fbWrite (a : Nat) (v : Word) (s : State) : Except Fault State :=
  if a < s.cfg.words then
    match s.cfg.store with
    | .resident => if a < s.fb.length then .ok (s.setFb (s.fb.set a v)) else .error (.frameAddress a)
    | .external => .ok (xmWrite16 (wordBase s.cfg a) v s)
  else .error (.frameAddress a)

/-- One read-modify-write of a word: one `FbRead`, then one `FbWrite`, whether or not the value changes (R63, R125). -/
def updateWord (a : Nat) (f : Word → Word) (s : State) : Out :=
  match fbRead a s with
  | .error e => .fault e
  | .ok (v, s1) =>
    match fbWrite a (f v) s1 with
    | .error e => .fault e
    | .ok s2 => .next s2

/-- The read-modify-writes of a run, in order, each written back before the next is read (R68). -/
def applyAccesses (c : Colour) : List Access → State → Out
  | [], s => .next s
  | a :: rest, s => andThen (updateWord a.addr (applyLanes c a.lanes) s) (applyAccesses c rest)

/-! ## Bus frames -/

/-- The start of every command frame: chip-select falls first, then command mode, then the command byte (R85, R153). -/
def commandByte (code : Byte) (s : State) : State := tx code (pin .dc false (pin .cs false s))

/-- The start of a command-with-data frame, left in data mode (R154, R171). -/
def openDataFrame (code : Byte) (s : State) : State := pin .dc true (commandByte code s)

/-- Data bytes under the current levels, then release of chip-select (R156). -/
def sendAndRelease (bs : List Byte) (s : State) : State := pin .cs true (txAll bs s)

/-! ## The plane pass of a flush -/

/-- One chunk (R174): read it into `PAGEBUF`, then send the bytes of one plane. -/
def streamChunk (p : Plane) (off n : Nat) (s : State) : State :=
  let chunk := xmRead (s.cfg.extBase + off) n s
  txAll (deinterleave p chunk.1) (chunk.2.setPagebuf (chunk.1 ++ s.pagebuf.drop n))

/-- The chunk loop of R174, `while off < 2 * N`. A chunk has at least one byte, so `2 * N` rounds of fuel are enough. -/
def streamPages (p : Plane) : Nat → Nat → State → State
  | 0, _, s => s
  | fuel + 1, off, s =>
    if off < 2 * s.cfg.words then
      streamPages p fuel (off + min s.cfg.pageBytes (2 * s.cfg.words - off))
        (streamChunk p off (min s.cfg.pageBytes (2 * s.cfg.words - off)) s)
    else s

/-- The data bytes of one plane, `a = 0 .. N-1` in increasing order (R171, R174). -/
def streamPlane (p : Plane) (s : State) : Out :=
  match s.cfg.store with
  | .resident =>
    if s.cfg.words ≤ s.fb.length then .next (txAll ((s.fb.take s.cfg.words).map (planeByte p)) s)
    else .fault (.frameAddress s.fb.length)
  | .external =>
    if s.cfg.pageOk then .next (streamPages p (2 * s.cfg.words) 0 s) else .refused .badConfiguration

/-- `PlanePass(cmd, plane)` (R171, R174). -/
def planePass (cmd : Byte) (p : Plane) (s : State) : Out :=
  andThen (streamPlane p (openDataFrame cmd s)) fun s1 => .next (pin .cs true s1)

/-! ## INIT -/

/-- The reset pulse (R186): high, 1 ms, low, 10 ms, high. -/
def resetPulse (s : State) : State :=
  pin .rst true (delay 10 (pin .rst false (delay 1 (pin .rst true s))))

/-- "hold until BUSY = 0" (R188): INIT completes when the sampled level is released and goes on holding otherwise. -/
def busyWait (s : State) : State := s.setPhase (if s.busy then .initWait else .idle)

/-! ## Inputs, and the acceptance of a command -/

/-- The panel's move (R28, R36): BUSY takes the next level of the feed; an exhausted feed leaves it as it is (log entry 6). -/
def panelMove (s : State) : State :=
  match s.busyFeed with
  | [] => s
  | level :: rest => { s with busy := level, busyFeed := rest }

/-- The refusal that says why a command was not decoded (R206). -/
def refusalOf : DecodeError → Refusal
  | .reservedEncoding => .reservedEncoding
  | .badPayload => .badPayload

/-- What the block does next. -/
inductive Fetched where
  /-- No command is taken: INIT is in its wait, or the host has handed over nothing. -/
  | stay (s : State)
  /-- The input has no meaning. -/
  | bad (r : Refusal)
  /-- A command was accepted and decoded. -/
  | run (i : Instr) (s : State)

/-- The acceptance of a command: "only when it is idle" (R87, R9). While INIT holds, only the panel can lift the hold (R188). -/
def accept (s : State) : Fetched :=
  match s.phase with
  | .initWait => .stay (busyWait s)
  | .idle =>
    match s.commands with
    | [] => .stay s
    | cmd :: rest =>
      match decode cmd with
      | .error e => .bad (refusalOf e)
      | .ok i => .run i (s.setCommands rest)

/-- One step's fetch: parameters outside their constraints are refused (D6); the panel moves first, then the block. -/
def fetch (s : State) : Fetched :=
  if s.cfg.wf then accept (panelMove s) else .bad .badConfiguration

end Sys2Proof.Machine
end

