-- ==== Sys2Proof/Machine/Flush.lean ====
section
/-! DEFINITION. The display flush: FLUSH (42_flush.md). -/

namespace Sys2Proof.Machine

/-- `FLUSH` (R170): the black/white plane pass, then the highlight pass when `CMD_HL` is present, whatever `HAS_HL` is (R172). -/
def execFlush (s : State) : Out :=
  whenConfigured s fun s =>
    andThen (planePass s.cfg.cmdBw .bw s) fun s1 =>
      match s1.cfg.cmdHl with
      | none => .next s1
      | some cmd => planePass cmd .hl s1

end Sys2Proof.Machine
end

