-- ==== Sys2Proof/Machine/Framer.lean ====
section
/-! DEFINITION. The command/data framer: DCMODE, SENDCMD, SENDCMDDATA, SENDDATA (41_framer.md). -/

namespace Sys2Proof.Machine

/-- `DCMODE m` (R152): `Pin(DC, m)`. -/
def execDcmode (m : Level) (s : State) : Out := whenConfigured s fun s => .next (pin .dc m s)

/-- `SENDCMD code, ar` (R153): the command byte, and release of chip-select only if `ar = 1`. -/
def execSendcmd (code : Byte) (ar : Bool) (s : State) : Out :=
  whenConfigured s fun s => .next (if ar then pin .cs true (commandByte code s) else commandByte code s)

/-- `SENDCMDDATA code, n, bytes` (R154); a payload whose length is not `n` is refused (R91, log entry 10). -/
def execSendcmddata (code : Byte) (n : Nat) (bytes : List Byte) (s : State) : Out :=
  if hasLength bytes n then whenConfigured s fun s => .next (sendAndRelease bytes (openDataFrame code s))
  else .refused .badPayload

/-- `SENDDATA n, bytes` (R156): neither CS nor DC is written before the bytes. -/
def execSenddata (n : Nat) (bytes : List Byte) (s : State) : Out :=
  if hasLength bytes n then whenConfigured s fun s => .next (sendAndRelease bytes s)
  else .refused .badPayload

end Sys2Proof.Machine
end

