-- ==== Sys2Proof/Machine/Geometry.lean ====
section
/-! DEFINITION. The geometry engine: SETROT, HLINE, VLINE (40_geometry.md). -/

namespace Sys2Proof.Machine

/-- `SETROT r` (R110): `ROT <- r`. -/
def execSetrot (r : Rotation) (s : State) : Out := .next (s.setRot r)

/-- `HLINE x, y, w, c` (R112): the colour gate, the transform, then the internal primitive's loop. -/
def execHline (x y w : Int) (c : Colour) (s : State) : Out :=
  if highlightDropped s.cfg c then .next s
  else applyAccesses c (hlineAccesses s.cfg s.rot x y w) s

/-- `VLINE x, y, h, c` (R113). -/
def execVline (x y h : Int) (c : Colour) (s : State) : Out :=
  if highlightDropped s.cfg c then .next s
  else applyAccesses c (vlineAccesses s.cfg s.rot x y h) s

end Sys2Proof.Machine
end

