-- ==== Sys2Proof/Machine/Lifecycle.lean ====
section
/-! DEFINITION. The lifecycle operation INIT (43_lifecycle.md). -/

namespace Sys2Proof.Machine

/-- `INIT rp` (R185): `IOEN <- 1`, the pulse when `rp = 1`, then the busy wait. A state with `phase = initWait` is INIT holding:
it has not completed (R188). -/
def execInit (rp : Bool) (s : State) : Out :=
  .next (busyWait (if rp then resetPulse (s.setIoen true) else s.setIoen true))

end Sys2Proof.Machine
end

