-- ==== Sys2Proof/Machine/Dispatch.lean ====
section
/-! DEFINITION. The dispatch: one arm per constructor of Instr. -/

namespace Sys2Proof.Machine

def exec (i : Instr) (s : State) : Host.Outcome State Fault Refusal :=
  match i with
  | .setrot r => Sys2Proof.Machine.execSetrot r s
  | .hline x y w c => Sys2Proof.Machine.execHline x y w c s
  | .vline x y h c => Sys2Proof.Machine.execVline x y h c s
  | .dcmode m => Sys2Proof.Machine.execDcmode m s
  | .sendcmd code ar => Sys2Proof.Machine.execSendcmd code ar s
  | .sendcmddata code n bytes => Sys2Proof.Machine.execSendcmddata code n bytes s
  | .senddata n bytes => Sys2Proof.Machine.execSenddata n bytes s
  | .flush => Sys2Proof.Machine.execFlush s
  | .init rp => Sys2Proof.Machine.execInit rp s

end Sys2Proof.Machine
end

