-- ==== Sys2Proof/Machine/Step.lean ====
section
/-! DEFINITION. One step of the machine, and the placing of a command where the next step takes it. -/

namespace Sys2Proof.Machine

/-- One step: the panel moves, then the block takes and runs a whole command (00_scope.md R8, R9), goes on holding in INIT's wait
(43_lifecycle.md R188), or waits for the host (70_reset_and_hazards.md R222). -/
def step (s : State) : Host.Outcome State Fault Refusal :=
  match fetch s with
  | .stay t => .next t
  | .bad r => .refused r
  | .run i t => exec i t

/-- The state in which the host hands over the command whose bits are `w` next (log entry 5): the block is idle, and the command
stands before the commands already in the list. -/
def State.withFetchWord (s : State) (nbits w : Nat) : State :=
  { s with phase := .idle, commands := commandOfTableWord nbits w :: s.commands }

end Sys2Proof.Machine
end

