-- ==== Sys2Proof/Machine/Observe.lean ====
section
/-! DEFINITION. What can be observed of the block (00_scope.md R17, 70_reset_and_hazards.md R242): the framebuffer words and pixels
(20_memory.md R70) and the trace (10_state.md R34). None of these is an operation of the block: the host reads nothing (R23). -/

namespace Sys2Proof.Machine

/-! ## The framebuffer -/

/-- `FbWord(a)` (R70): word `a` of the store without any event; none when the word does not exist. -/
def fbPeek (s : State) (a : Nat) : Option Word :=
  if a < s.cfg.words then
    match s.cfg.store with
    | .resident => s.fb[a]?
    | .external => some (s.xm.read16 (wordBase s.cfg a))
  else none

/-- `PixBW(x, y)` (R70). -/
def pixBW (s : State) (x y : Nat) : Option Level :=
  (fbPeek s (wordAddr s.cfg x y)).map fun v => v.getLsbD (7 - y % 8)

/-- `PixHL(x, y)` (R70). -/
def pixHL (s : State) (x y : Nat) : Option Level :=
  (fbPeek s (wordAddr s.cfg x y)).map fun v => v.getLsbD (15 - y % 8)

/-- `Native(ROT, x, y)` (R70), for a logical pixel inside the logical panel. -/
def native (cfg : Config) (rot : Rotation) (x y : Nat) : Nat × Nat :=
  match rot with
  | .deg0 => (x, y)
  | .deg90 => (cfg.width - 1 - y, x)
  | .deg180 => (cfg.width - 1 - x, cfg.height - 1 - y)
  | .deg270 => (y, cfg.height - 1 - x)

/-- Width of the logical panel (R70). -/
def logicalWidth (cfg : Config) (rot : Rotation) : Nat :=
  match rot with
  | .deg0 => cfg.width
  | .deg90 => cfg.height
  | .deg180 => cfg.width
  | .deg270 => cfg.height

/-- Height of the logical panel (R70). -/
def logicalHeight (cfg : Config) (rot : Rotation) : Nat :=
  match rot with
  | .deg0 => cfg.height
  | .deg90 => cfg.width
  | .deg180 => cfg.height
  | .deg270 => cfg.width

/-- `LogPixBW(ROT, x, y)` (R70). -/
def logPixBW (s : State) (rot : Rotation) (x y : Nat) : Option Level :=
  pixBW s (native s.cfg rot x y).1 (native s.cfg rot x y).2

/-- A pixel's black/white bit after a colour is applied to it (R51, R116: 1 is BLACK, 0 is WHITE). -/
def bwAfter (c : Colour) (old : Level) : Level :=
  match c with
  | .black => true
  | .white => false
  | .invert => !old
  | .highlight => old

/-- A pixel's highlight bit after a colour is applied to it (R116). -/
def hlAfter (c : Colour) (old : Level) : Level :=
  match c with
  | .black => old
  | .white => old
  | .invert => old
  | .highlight => true

/-! ## What a run does to one word, and the events it emits -/

/-- What a list of read-modify-writes does to the word at `a`: those at `a`, in order. -/
def wordAfter (c : Colour) (acc : List Access) (a : Nat) (v : Word) : Word :=
  acc.foldl (fun u x => if x.addr = a then applyLanes c x.lanes u else u) v

/-- The events of a list of read-modify-writes of an external framebuffer whose words are `m` (R134, R56, R57): for each, in order,
the `read16` with the value it returns and the `write16` of the new value. -/
def accessEvents (cfg : Config) (c : Colour) : List Access → (Nat → Word) → List Event
  | [], _ => []
  | x :: rest, m =>
    .xmR16 (wordBase cfg x.addr) (m x.addr)
      :: .xmW16 (wordBase cfg x.addr) (applyLanes c x.lanes (m x.addr))
      :: accessEvents cfg c rest (fun a => if a = x.addr then applyLanes c x.lanes (m a) else m a)

/-- Pairs of a `read16` and the `write16` after it (R134): for each, the byte address, the value read and the value written. -/
def accessPairs (acc : List (Nat × Word × Word)) : List Event :=
  acc.flatMap fun p => [.xmR16 p.1 p.2.1, .xmW16 p.1 p.2.2]

/-- The byte address `b` is one that a list of read-modify-writes of an external framebuffer stores to (R57). -/
def storesByte (cfg : Config) (acc : List Access) (b : Nat) : Bool :=
  acc.any fun x => b == wordBase cfg x.addr || b == wordBase cfg x.addr + 1

/-! ## The chunks of a flush of an external framebuffer (42_flush.md R174) -/

/-- `ceil(2N / PAGE_BYTES)`: how many chunks a pass reads (R175). -/
def chunkCount (cfg : Config) : Nat := (2 * cfg.words + cfg.pageBytes - 1) / cfg.pageBytes

/-- Byte address of chunk `k`: `EXT_BASE + off`, with `off` a whole number of pages. -/
def chunkBase (cfg : Config) (k : Nat) : Nat := cfg.extBase + k * cfg.pageBytes

/-- Length of chunk `k`: `min(PAGE_BYTES, 2N - off)`. -/
def chunkLength (cfg : Config) (k : Nat) : Nat := min cfg.pageBytes (2 * cfg.words - k * cfg.pageBytes)

/-- Position of a plane's byte in the two bytes of a word: even-indexed bytes are the highlight plane's, odd-indexed ones the
black/white plane's. -/
def Plane.byteOffset : Plane → Nat
  | .bw => 1
  | .hl => 0

/-- The events of chunk `k`: its read, then one transfer for each byte of the plane in it. -/
def chunkEvents (p : Plane) (cfg : Config) (m : Memory) (k : Nat) : List Event :=
  .xmR (chunkBase cfg k) (chunkLength cfg k) (m.readBytes (chunkBase cfg k) (chunkLength cfg k))
    :: (List.range (chunkLength cfg k / 2)).map fun j => .tx (m.read (chunkBase cfg k + (2 * j + p.byteOffset)))

/-- The events of one pass of an external flush: command byte, data mode, the chunks in order, release. -/
def passEvents (cmd : Byte) (p : Plane) (cfg : Config) (m : Memory) : List Event :=
  [.pin .cs false, .pin .dc false, .tx cmd, .pin .dc true] ++ (List.range (chunkCount cfg)).flatMap (chunkEvents p cfg m)
    ++ [.pin .cs true]

/-! ## The trace -/

/-- An event the panel sees: a pin write or a byte transfer (R175). -/
def Event.onBus : Event → Bool
  | .pin _ _ => true
  | .tx _ => true
  | .delay _ => false
  | .xmR16 _ _ => false
  | .xmW16 _ _ => false
  | .xmR _ _ _ => false

/-- A chunk read of the external memory (R174). -/
def Event.isChunkRead : Event → Bool
  | .pin _ _ => false
  | .tx _ => false
  | .delay _ => false
  | .xmR16 _ _ => false
  | .xmW16 _ _ => false
  | .xmR _ _ _ => true

/-- A byte transfer. -/
def Event.isTx : Event → Bool
  | .pin _ _ => false
  | .tx _ => true
  | .delay _ => false
  | .xmR16 _ _ => false
  | .xmW16 _ _ => false
  | .xmR _ _ _ => false

/-- An event that uses the block's pins: a pin write, a byte transfer or a hold of the reset pulse. -/
def Event.usesPins : Event → Bool
  | .pin _ _ => true
  | .tx _ => true
  | .delay _ => true
  | .xmR16 _ _ => false
  | .xmW16 _ _ => false
  | .xmR _ _ _ => false

/-- The level of a pin after the events of a trace, from the level before them. -/
def levelAfter (p : Pin) : Level → List Event → Level
  | v, [] => v
  | v, .pin q u :: rest => levelAfter p (if q = p then u else v) rest
  | v, .tx _ :: rest => levelAfter p v rest
  | v, .delay _ :: rest => levelAfter p v rest
  | v, .xmR16 _ _ :: rest => levelAfter p v rest
  | v, .xmW16 _ _ :: rest => levelAfter p v rest
  | v, .xmR _ _ _ :: rest => levelAfter p v rest

/-- What the panel takes a transferred byte for: "qualified by the current CS and DC latch values" (R34, R150). -/
structure SentByte where
  cs   : Level
  dc   : Level
  byte : Byte
  deriving DecidableEq, Repr

/-- The bus output stream (R32): the bytes sent, each with the levels of CS and DC when it is sent, from given levels on. -/
def sentBytes : Level → Level → List Event → List SentByte
  | _, _, [] => []
  | _, dc, .pin .cs v :: rest => sentBytes v dc rest
  | cs, _, .pin .dc v :: rest => sentBytes cs v rest
  | cs, dc, .pin .rst _ :: rest => sentBytes cs dc rest
  | cs, dc, .tx b :: rest => { cs := cs, dc := dc, byte := b } :: sentBytes cs dc rest
  | cs, dc, .delay _ :: rest => sentBytes cs dc rest
  | cs, dc, .xmR16 _ _ :: rest => sentBytes cs dc rest
  | cs, dc, .xmW16 _ _ :: rest => sentBytes cs dc rest
  | cs, dc, .xmR _ _ _ :: rest => sentBytes cs dc rest

/-- A trace without the `Pin` events that do not change a level (R34), from given levels of CS, DC and RST on. -/
def withoutIdlePins : Level → Level → Level → List Event → List Event
  | _, _, _, [] => []
  | cs, dc, rst, .pin .cs v :: rest =>
    if v = cs then withoutIdlePins cs dc rst rest else .pin .cs v :: withoutIdlePins v dc rst rest
  | cs, dc, rst, .pin .dc v :: rest =>
    if v = dc then withoutIdlePins cs dc rst rest else .pin .dc v :: withoutIdlePins cs v rst rest
  | cs, dc, rst, .pin .rst v :: rest =>
    if v = rst then withoutIdlePins cs dc rst rest else .pin .rst v :: withoutIdlePins cs dc v rest
  | cs, dc, rst, .tx b :: rest => .tx b :: withoutIdlePins cs dc rst rest
  | cs, dc, rst, .delay ms :: rest => .delay ms :: withoutIdlePins cs dc rst rest
  | cs, dc, rst, .xmR16 b v :: rest => .xmR16 b v :: withoutIdlePins cs dc rst rest
  | cs, dc, rst, .xmW16 b v :: rest => .xmW16 b v :: withoutIdlePins cs dc rst rest
  | cs, dc, rst, .xmR b n bytes :: rest => .xmR b n bytes :: withoutIdlePins cs dc rst rest

/-- Two traces are equivalent for the panel (R34). -/
def panelEquivalent (cs dc rst : Level) (t u : List Event) : Bool :=
  withoutIdlePins cs dc rst t == withoutIdlePins cs dc rst u

/-- The electrical level of the BUSY pin (R6 `BUSY_ACTIVE_LEVEL`, R28); no rule depends on it. -/
def busyPinLevel (s : State) : Level := if s.busy then s.cfg.busyActiveLevel else !s.cfg.busyActiveLevel

/-! ## Outcomes -/

/-- The state an outcome leaves, when it is a next state. -/
def stateOf? (o : Out) : Option State :=
  match o with
  | .next t => some t
  | .fault _ => none
  | .refused _ => none

/-- The reason of a refusal. -/
def refusalOf? (o : Out) : Option Refusal :=
  match o with
  | .next _ => none
  | .fault _ => none
  | .refused r => some r

/-- The events an operation added to the trace of `s`. -/
def newEvents (s t : State) : List Event := t.trace.drop s.trace.length

end Sys2Proof.Machine
end

