-- ==== Sys2Proof/Safety.lean ====
section
/-! DEFINITION. What counts as a legal state and as a safe run, in the terms the statements use. -/

namespace Sys2Proof.Machine

/-- The state has the shape its parameters give it (10_state.md R20, R30, R31, R33): parameters within the constraints of R6, the
framebuffer array and PAGEBUF exactly as long as the parameters say, the external memory in canonical form and absent when the
store is resident. -/
abbrev State.wf (s : State) : Prop :=
  s.cfg.wf = true ∧ s.xm.wf
    ∧ (s.cfg.store = .resident → s.fb.length = s.cfg.words ∧ s.pagebuf = [] ∧ s.xm.cells = [])
    ∧ (s.cfg.store = .external → s.fb = [] ∧ s.pagebuf.length = s.cfg.pageBytes)

/-- Every latch is what the pin writes of the trace say, from the reset levels on (10_state.md R34, R37). -/
abbrev State.pinsRecorded (s : State) : Prop :=
  levelAfter .cs true s.trace = s.cs ∧ levelAfter .dc true s.trace = s.dc ∧ levelAfter .rst true s.trace = s.rst

/-- Before the first INIT no event has used a pin, and INIT is not holding (41_framer.md R157, 70_reset_and_hazards.md R224). -/
abbrev State.quietBeforeInit (s : State) : Prop :=
  s.ioen = false → s.phase = .idle ∧ ∀ e ∈ s.trace, e.usesPins = false

/-- Only `fb`, `xm` and `trace` may differ: the frame of a draw (40_geometry.md R121, R126: "framebuffer words only"). -/
abbrev SameButStore (s t : State) : Prop := t = { s with fb := t.fb, xm := t.xm, trace := t.trace }

/-- Only `cs`, `dc`, `pagebuf` and `trace` may differ: the frame of a flush (42_flush.md R170). -/
abbrev SameButFlush (s t : State) : Prop :=
  t = { s with cs := t.cs, dc := t.dc, pagebuf := t.pagebuf, trace := t.trace }

/-- The machine did not stop: the step completed or holds (60_exceptions.md R202). -/
abbrev Runs (o : Out) : Prop := ∃ t, o = .next t

/-- Whether the operation takes no pin and so needs no INIT (70_reset_and_hazards.md R224: "Draw operations and SETROT"), or is INIT. -/
def needsIo : Instr → Bool
  | .setrot _ => false
  | .hline _ _ _ _ => false
  | .vline _ _ _ _ => false
  | .dcmode _ => true
  | .sendcmd _ _ => true
  | .sendcmddata _ _ _ => true
  | .senddata _ _ => true
  | .flush => true
  | .init _ => false

/-- The payload of the operation has the length its count says (30_encoding.md R91). -/
def payloadFits : Instr → Bool
  | .setrot _ => true
  | .hline _ _ _ _ => true
  | .vline _ _ _ _ => true
  | .dcmode _ => true
  | .sendcmd _ _ => true
  | .sendcmddata _ n bytes => hasLength bytes n
  | .senddata n bytes => hasLength bytes n
  | .flush => true
  | .init _ => true

end Sys2Proof.Machine
end

