-- ==== Sys2Proof/Certificates/Slice0/Obligations.lean ====
section
/-! DEFINITION. The statements for the provers. `false` is level 0 and `true` is level 1 of a pin. -/

open Sys2Proof Sys2Proof.Machine

/-! ## Encoding (30_encoding.md) -/

/-- R88 to R93: the command of every well-formed operation decodes to that operation, every operand at every value the encoding
admits. -/
def Obligations.DecodeOfEncodeIsTheInstruction : Prop :=
  ∀ i : Instr, i.wf = true → decode (encode i) = .ok i

/-- R88 to R94: whatever decodes is well-formed, and encoding it gives the command back: no bit of an accepted command word and no
payload byte is dropped. -/
def Obligations.EncodeOfDecodeIsTheCommand : Prop :=
  ∀ (cmd : Command) (i : Instr), decode cmd = .ok i → i.wf = true ∧ encode i = cmd

/-- R94 (the spec's decision D21): a word is reserved exactly when `OP` is 0x0 or 0xA to 0xF, or `Z = 1`, or a field its operation
does not use (R90) is non-zero; a reserved word at the head of the host's list is refused. -/
def Obligations.ReservedWordsAreRefused : Prop :=
  (∀ (w : CommandWord) (p : List Byte),
    decode { word := w, payload := p } = .error .reservedEncoding ↔
      (w.extractLsb' 60 4 = 0 ∨ 0xA#4 ≤ w.extractLsb' 60 4 ∨ w.getLsbD 56 = true
        ∨ (w.extractLsb' 58 2 ≠ 0 ∧ w.extractLsb' 60 4 ∉ [1#4, 2#4, 3#4])
        ∨ (w.getLsbD 57 = true ∧ w.extractLsb' 60 4 ∉ [4#4, 5#4, 9#4])
        ∨ (w.extractLsb' 48 8 ≠ 0 ∧ w.extractLsb' 60 4 ∉ [5#4, 6#4])
        ∨ (w.extractLsb' 32 16 ≠ 0 ∧ w.extractLsb' 60 4 ∉ [2#4, 3#4])
        ∨ (w.extractLsb' 16 16 ≠ 0 ∧ w.extractLsb' 60 4 ∉ [2#4, 3#4])
        ∨ (w.extractLsb' 0 16 ≠ 0 ∧ w.extractLsb' 60 4 ∉ [2#4, 3#4, 6#4, 7#4])))
  ∧ ∀ (s : State) (cmd : Command) (rest : List Command),
      s.cfg.wf = true → s.phase = .idle → s.commands = cmd :: rest → decode cmd = .error .reservedEncoding →
        step s = .refused .reservedEncoding

/-- opcode_table.json: a word is not reserved exactly when it carries the fixed bits of a row, and what it decodes to is that row's
operation. -/
def Obligations.DecodableWordsAreThoseOfTheOpcodeTable : Prop :=
  (∀ (w : CommandWord) (p : List Byte),
    decode { word := w, payload := p } ≠ .error .reservedEncoding ↔ ∃ r ∈ opcodeTable, w &&& r.mask = r.pattern)
  ∧ ∀ (w : CommandWord) (p : List Byte) (i : Instr), decode { word := w, payload := p } = .ok i →
      ∀ r ∈ opcodeTable, w &&& r.mask = r.pattern ↔ r.opcode = i.opcode

/-- R90, R91, R206: a word that is not reserved is decoded exactly when its payload has the length the operation takes: `LEN` bytes
for SENDCMDDATA (OP 6) and SENDDATA (OP 7), none for the others (the last is the model's reading, log entry 10). A payload of
another length is refused when its turn comes. -/
def Obligations.PayloadOfTheWrongLengthIsRefused : Prop :=
  (∀ (w : CommandWord) (p : List Byte), decode { word := w, payload := p } ≠ .error .reservedEncoding →
    (decode { word := w, payload := p } = .error .badPayload ↔
      p.length ≠ if w.extractLsb' 60 4 ∈ [6#4, 7#4] then (w.extractLsb' 0 16).toNat else 0))
  ∧ ∀ (s : State) (cmd : Command) (rest : List Command),
      s.cfg.wf = true → s.phase = .idle → s.commands = cmd :: rest → decode cmd = .error .badPayload →
        step s = .refused .badPayload

/-- R90: the spec's own encoding examples decode to the operations they stand for. -/
def Obligations.ExampleWordsDecode : Prop :=
  decode { word := 0x2000000A00050014, payload := [] } = .ok (.hline 10 5 20 .black)
  ∧ decode { word := 0x2400FFFD00050014, payload := [] } = .ok (.hline (-3) 5 20 .white)
  ∧ decode { word := 0x3000000000000032, payload := [] } = .ok (.vline 0 0 50 .black)
  ∧ decode { word := 0x1400000000000000, payload := [] } = .ok (.setrot .deg90)
  ∧ decode { word := 0x5024000000000000, payload := [] } = .ok (.sendcmd 0x24 false)
  ∧ decode { word := 0x5224000000000000, payload := [] } = .ok (.sendcmd 0x24 true)
  ∧ decode { word := 0x8000000000000000, payload := [] } = .ok .flush
  ∧ decode { word := 0x9200000000000000, payload := [] } = .ok (.init true)
  ∧ decode { word := 0x6001000000000003, payload := [0xC7, 0x00, 0x00] } = .ok (.sendcmddata 0x01 3 [0xC7, 0x00, 0x00])
  ∧ decode { word := 0x7000000000000002, payload := [0xAA, 0x55] } = .ok (.senddata 2 [0xAA, 0x55])
  ∧ decode { word := 0x4200000000000000, payload := [] } = .ok (.dcmode true)

/-! ## One step (00_scope.md R8, R9) -/

/-- R9, R87: an idle block takes the host's next command and runs it whole. Around `exec` the step removes the command from the
host's list and moves the panel: BUSY takes the next level of its feed (log entries 5, 6). -/
def Obligations.StepRunsTheDecodedInstruction : Prop :=
  ∀ (s : State) (cmd : Command) (rest : List Command) (i : Instr),
    s.cfg.wf = true → s.phase = .idle → s.commands = cmd :: rest → decode cmd = .ok i →
      step s = exec i { s with busy := s.busyFeed.headD s.busy, busyFeed := s.busyFeed.tail, commands := rest }

/-- The command placed by `withFetchWord` is the one the next step runs, whatever the block was doing (log entry 5). -/
def Obligations.PlacedCommandRunsNext : Prop :=
  ∀ (s : State) (nbits w : Nat) (i : Instr), s.cfg.wf = true → decodeTableWord nbits w = some i →
    step (s.withFetchWord nbits w)
      = exec i { s with phase := .idle, busy := s.busyFeed.headD s.busy, busyFeed := s.busyFeed.tail }

/-- R222: with nothing handed over, the idle block waits for the host: only the panel moves (the model's choice, log entries 5, 6).
D6: parameters outside the constraints of R6 are refused (log entry 11). -/
def Obligations.IdleBlockWaitsForTheHost : Prop :=
  (∀ s : State, s.cfg.wf = true → s.phase = .idle → s.commands = [] →
    step s = .next { s with busy := s.busyFeed.headD s.busy, busyFeed := s.busyFeed.tail })
  ∧ ∀ s : State, s.cfg.wf = false → step s = .refused .badConfiguration

/-! ## Whole-machine invariants -/

/-- R20, R30, R31, R33, R59: every step from a well-formed state to a next state leaves a well-formed state: the parameters, the
lengths of the framebuffer and of PAGEBUF, and the canonical form of the external memory. -/
def Obligations.StepKeepsStateWellFormed : Prop :=
  ∀ s t : State, s.wf → step s = .next t → t.wf

/-- R37, R221: the reset state, and every reset state with parameters within R6 and contents of the right size, is well-formed. -/
def Obligations.ResetStatesAreWellFormed : Prop :=
  State.reset.wf
  ∧ ∀ (cfg : Config) (fb : List Word) (page : List Byte) (xm : Memory) (busy : Level) (feed : List Level)
      (commands : List Command), cfg.wf = true → xm.wf →
      (cfg.store = .resident → fb.length = cfg.words ∧ page = [] ∧ xm.cells = []) →
      (cfg.store = .external → fb = [] ∧ page.length = cfg.pageBytes) →
        let s := State.resetWith cfg fb page xm busy feed commands
        s.wf ∧ s.pinsRecorded ∧ s.quietBeforeInit

/-- R200, R202, R59: no step from a well-formed state ends in a fault: "the block never traps", and every word address a draw or a
flush computes exists. -/
def Obligations.StepNeverFaults : Prop :=
  ∀ (s : State) (f : Fault), s.wf → step s ≠ .fault f

/-- R34 (the spec's decision D24; log entry 8): every step keeps each pin latch equal to what the pin writes in the trace make of
its reset level. -/
def Obligations.StepKeepsPinsRecorded : Prop :=
  ∀ s t : State, s.pinsRecorded → step s = .next t → t.pinsRecorded

/-- R157, R224, R225: as long as no INIT has been issued, no event of the trace uses a pin. -/
def Obligations.StepKeepsQuietBeforeInit : Prop :=
  ∀ s t : State, s.quietBeforeInit → step s = .next t → t.quietBeforeInit

/-- R20 (the column "written by"), R24 to R27, R29, R30, R33: which operations write each piece of state; the parameters and the
inputs are written by none; and the trace only grows. -/
def Obligations.EachPieceIsWrittenOnlyByItsOperations : Prop :=
  ∀ (i : Instr) (s t : State), exec i s = .next t →
    t.cfg = s.cfg ∧ t.busy = s.busy ∧ t.busyFeed = s.busyFeed ∧ t.commands = s.commands
    ∧ (∃ es, t.trace = s.trace ++ es)
    ∧ (i.opcode ≠ .setrot → t.rot = s.rot)
    ∧ (i.opcode ∉ [.sendcmd, .sendcmddata, .senddata, .flush] → t.cs = s.cs)
    ∧ (i.opcode ∉ [.dcmode, .sendcmd, .sendcmddata, .flush] → t.dc = s.dc)
    ∧ (i ≠ .init true → t.rst = s.rst)
    ∧ (i.opcode ≠ .init → t.ioen = s.ioen ∧ t.phase = s.phase)
    ∧ (i.opcode ∉ [.hline, .vline] → t.fb = s.fb ∧ t.xm = s.xm)
    ∧ (i.opcode ≠ .flush → t.pagebuf = s.pagebuf)

/-- R29 (the spec's decision D23; log entry 12): IOEN is 0 at reset, INIT sets it and nothing clears it; a framer operation or FLUSH
while it is 0 is refused; the draw operations and SETROT do not depend on it. -/
def Obligations.IoenIsSetByInitAndNeverCleared : Prop :=
  State.reset.ioen = false
  ∧ (∀ (rp : Bool) (s : State), ∃ t, exec (.init rp) s = .next t ∧ t.ioen = true)
  ∧ (∀ s t : State, s.ioen = true → step s = .next t → t.ioen = true)
  ∧ (∀ (i : Instr) (s : State), i.wf = true → i.opcode ∈ [.dcmode, .sendcmd, .sendcmddata, .senddata, .flush] →
      s.ioen = false → exec i s = .refused .ioNotConfigured)
  ∧ ∀ (i : Instr) (s t : State) (v : Bool), i.opcode ∈ [.setrot, .hline, .vline] → exec i s = .next t →
      exec i { s with ioen := v } = .next { t with ioen := v }

/-- R238 (derived by the spec from R116, R117): highlight bits can be set and never cleared, in any number of steps. -/
def Obligations.HighlightBitsAreNeverCleared : Prop :=
  ∀ (n : Nat) (s t : State), s.wf → Sys2Proof.core.run n s = .next t →
    ∀ (a : Nat) (v : Word), fbPeek s a = some v →
      ∃ u, fbPeek t a = some u ∧ ∀ k, 8 ≤ k → v.getLsbD k = true → u.getLsbD k = true

/-- R28, R158, R236: no operation but INIT looks at BUSY. -/
def Obligations.BusyIsReadOnlyByInit : Prop :=
  ∀ (i : Instr) (s : State) (level : Level), i.opcode ≠ .init →
    (∀ t, exec i s = .next t → exec i { s with busy := level } = .next { t with busy := level })
    ∧ (∀ r, exec i s = .refused r → exec i { s with busy := level } = .refused r)

/-- R24, R170, R235: only HLINE and VLINE read ROT; every other operation does the same under every rotation. -/
def Obligations.RotationIsReadOnlyByDraws : Prop :=
  ∀ (i : Instr) (s : State) (r : Rotation), i.opcode ∉ [.setrot, .hline, .vline] →
    (∀ t, exec i s = .next t → exec i { s with rot := r } = .next { t with rot := r })
    ∧ (∀ e, exec i s = .refused e → exec i { s with rot := r } = .refused e)

/-! ## The colour rules (40_geometry.md R116 to R118) -/

/-- R116: `ApplyBit(v, c, k)`: the one bit of the table is set, cleared or flipped; the other fifteen are copied. -/
def Obligations.ApplyBitFollowsTheColourRule : Prop :=
  ∀ (v : Word) (k i : Nat), k ≤ 7 → i < 16 →
    (applyBit v .black k).getLsbD i = (if i = 7 - k then true else v.getLsbD i)
    ∧ (applyBit v .white k).getLsbD i = (if i = 7 - k then false else v.getLsbD i)
    ∧ (applyBit v .invert k).getLsbD i = (if i = 7 - k then !v.getLsbD i else v.getLsbD i)
    ∧ (applyBit v .highlight k).getLsbD i = (if i = 15 - k then true else v.getLsbD i)

/-- R117 (the spec's decision D8): `ApplyBlock(v, c)` is the table's word, and equals `ApplyBit` applied for `k = 0, 1, ..., 7` in
turn. -/
def Obligations.ApplyBlockIsEightApplyBits : Prop :=
  ∀ v : Word,
    applyBlock v .black = v ||| 0x00FF ∧ applyBlock v .white = v &&& 0xFF00
    ∧ applyBlock v .invert = v ^^^ 0x00FF ∧ applyBlock v .highlight = v ||| 0xFF00
    ∧ ∀ c : Colour, applyBlock v c = [0, 1, 2, 3, 4, 5, 6, 7].foldl (fun u k => applyBit u c k) v

/-- R118: involution, absolute set, order dependence, and HIGHLIGHT idempotent and commuting, for a pixel and for a block. -/
def Obligations.ColourLaws : Prop :=
  ∀ (v : Word) (l : Lanes), (∀ k, l = .pixel k → k ≤ 7) →
    applyLanes .invert l (applyLanes .invert l v) = v
    ∧ applyLanes .white l (applyLanes .black l v) = applyLanes .white l v
    ∧ applyLanes .black l (applyLanes .white l v) = applyLanes .black l v
    ∧ applyLanes .invert l (applyLanes .black l v) = applyLanes .white l v
    ∧ applyLanes .black l (applyLanes .invert l v) = applyLanes .black l v
    ∧ applyLanes .highlight l (applyLanes .highlight l v) = applyLanes .highlight l v
    ∧ ∀ c : Colour, applyLanes .highlight l (applyLanes c l v) = applyLanes c l (applyLanes .highlight l v)

/-! ## SETROT, HLINE, VLINE (40_geometry.md) -/

/-- R110: `SETROT r` completes in every state and writes ROT only; all four values are legal. -/
def Obligations.SetrotWritesOnlyRot : Prop :=
  ∀ (r : Rotation) (s : State), exec (.setrot r) s = .next { s with rot := r }

/-- R135: the closed form of the transform, cell by cell. -/
def Obligations.TransformHasTheClosedForm : Prop :=
  ∀ (cfg : Config) (x y n : Int),
    rotateHline cfg .deg0 x y n = ⟨.horizontal, x, y, n⟩
    ∧ rotateHline cfg .deg90 x y n = ⟨.vertical, cfg.width - 1 - y, x, n⟩
    ∧ rotateHline cfg .deg180 x y n = ⟨.horizontal, cfg.width - x - n, cfg.height - 1 - y, n⟩
    ∧ rotateHline cfg .deg270 x y n = ⟨.vertical, y, cfg.height - x - n, n⟩
    ∧ rotateVline cfg .deg0 x y n = ⟨.vertical, x, y, n⟩
    ∧ rotateVline cfg .deg90 x y n = ⟨.horizontal, cfg.width - y - n, x, n⟩
    ∧ rotateVline cfg .deg180 x y n = ⟨.vertical, cfg.width - 1 - x, cfg.height - y - n, n⟩
    ∧ rotateVline cfg .deg270 x y n = ⟨.horizontal, y, cfg.height - 1 - x, n⟩

/-- R135, R70: the native run of a logical run inside the logical panel has as its pixels the images of the logical pixels. -/
def Obligations.TransformMapsLogicalPixelsToNativePixels : Prop :=
  ∀ (cfg : Config) (rot : Rotation) (x y n j : Nat), j < n →
    (x + n ≤ logicalWidth cfg rot → y < logicalHeight cfg rot →
      ∃ k : Nat, k < n ∧
        ((rotateHline cfg rot x y n).axis = .horizontal →
          ((native cfg rot (x + j) y).1 : Int) = (rotateHline cfg rot x y n).x + k
          ∧ ((native cfg rot (x + j) y).2 : Int) = (rotateHline cfg rot x y n).y)
        ∧ ((rotateHline cfg rot x y n).axis = .vertical →
          ((native cfg rot (x + j) y).1 : Int) = (rotateHline cfg rot x y n).x
          ∧ ((native cfg rot (x + j) y).2 : Int) = (rotateHline cfg rot x y n).y + k))
    ∧ (x < logicalWidth cfg rot → y + n ≤ logicalHeight cfg rot →
      ∃ k : Nat, k < n ∧
        ((rotateVline cfg rot x y n).axis = .horizontal →
          ((native cfg rot x (y + j)).1 : Int) = (rotateVline cfg rot x y n).x + k
          ∧ ((native cfg rot x (y + j)).2 : Int) = (rotateVline cfg rot x y n).y)
        ∧ ((rotateVline cfg rot x y n).axis = .vertical →
          ((native cfg rot x (y + j)).1 : Int) = (rotateVline cfg rot x y n).x
          ∧ ((native cfg rot x (y + j)).2 : Int) = (rotateVline cfg rot x y n).y + k))

/-- R123, R127: the clamp keeps exactly the part of the run that lies on the panel, and never lengthens the run. -/
def Obligations.ClampKeepsTheOnPanelPart : Prop :=
  ∀ bound start len : Int,
    (∀ v : Int, ((clampSpan bound start len).1 ≤ v ∧ v < (clampSpan bound start len).1 + (clampSpan bound start len).2) ↔
      (start ≤ v ∧ v < start + len ∧ 0 ≤ v ∧ v < bound))
    ∧ (clampSpan bound start len).2 ≤ len
    ∧ (0 < (clampSpan bound start len).2 →
        0 ≤ (clampSpan bound start len).1 ∧ (clampSpan bound start len).1 + (clampSpan bound start len).2 ≤ bound)

/-- R119: with 16-bit operands and parameters in [1, 32767] the coordinates of the transformed run fit an 18-bit two's-complement
datapath. -/
def Obligations.TransformFitsEighteenBits : Prop :=
  ∀ (cfg : Config) (rot : Rotation) (x y n : Int), cfg.wf = true →
    fitsSigned16 x = true → fitsSigned16 y = true → fitsSigned16 n = true →
      |(rotateHline cfg rot x y n).x| < 2 ^ 17 ∧ |(rotateHline cfg rot x y n).y| < 2 ^ 17
      ∧ |(rotateVline cfg rot x y n).x| < 2 ^ 17 ∧ |(rotateVline cfg rot x y n).y| < 2 ^ 17

/-- R112, R111, R115, R120 to R134: `HLINE` completes in every well-formed state. It changes the store and the trace only. Every
framebuffer word holds what the read-modify-writes at its address, in order, make of it, and a word at which none happens is
unchanged. Resident: no event. External: one `read16` and one `write16` for each, in order, and every byte outside the stored ones
reads as before. The accesses are none when the colour is dropped. -/
def Obligations.HlineDrawsItsRun : Prop :=
  ∀ (s : State) (x y w : Int) (c : Colour) (acc : List Access), s.wf →
    acc = (if c = .highlight ∧ s.cfg.hasHl = false then [] else hlineAccesses s.cfg s.rot x y w) →
    ∃ t, exec (.hline x y w c) s = .next t
      ∧ SameButStore s t
      ∧ (∀ a, fbPeek t a = (fbPeek s a).map (wordAfter c acc a))
      ∧ (∀ a, (∀ m ∈ acc, m.addr ≠ a) → fbPeek t a = fbPeek s a)
      ∧ (s.cfg.store = .resident → t.xm = s.xm ∧ t.trace = s.trace)
      ∧ (s.cfg.store = .external → t.fb = s.fb
          ∧ (∀ b, storesByte s.cfg acc b = false → t.xm.read b = s.xm.read b)
          ∧ t.trace = s.trace ++ accessEvents s.cfg c acc (fun a => s.xm.read16 (wordBase s.cfg a)))

/-- R113, R111, R115, R120 to R134: `VLINE` completes in every well-formed state, with the same frame. -/
def Obligations.VlineDrawsItsRun : Prop :=
  ∀ (s : State) (x y h : Int) (c : Colour) (acc : List Access), s.wf →
    acc = (if c = .highlight ∧ s.cfg.hasHl = false then [] else vlineAccesses s.cfg s.rot x y h) →
    ∃ t, exec (.vline x y h c) s = .next t
      ∧ SameButStore s t
      ∧ (∀ a, fbPeek t a = (fbPeek s a).map (wordAfter c acc a))
      ∧ (∀ a, (∀ m ∈ acc, m.addr ≠ a) → fbPeek t a = fbPeek s a)
      ∧ (s.cfg.store = .resident → t.xm = s.xm ∧ t.trace = s.trace)
      ∧ (s.cfg.store = .external → t.fb = s.fb
          ∧ (∀ b, storesByte s.cfg acc b = false → t.xm.read b = s.xm.read b)
          ∧ t.trace = s.trace ++ accessEvents s.cfg c acc (fun a => s.xm.read16 (wordBase s.cfg a)))

/-- R111 (the spec's decision D9): when HAS_HL is false, an HLINE or VLINE whose colour is HIGHLIGHT is dropped as a whole, in every
state: nothing is read or written, no event is emitted, the operation completes. -/
def Obligations.HighlightWithoutThePlaneIsDropped : Prop :=
  ∀ (s : State) (x y n : Int), s.cfg.hasHl = false →
    exec (.hline x y n .highlight) s = .next s ∧ exec (.vline x y n .highlight) s = .next s

/-- R133 (a), (b), (e): a run of length 0 or less, and a run entirely off the logical panel in either axis, leaves the whole state
as it is. -/
def Obligations.RunsOffThePanelLeaveTheStateUnchanged : Prop :=
  ∀ (s : State) (x y n : Int) (c : Colour),
    ((n ≤ 0 ∨ y < 0 ∨ (logicalHeight s.cfg s.rot : Int) ≤ y ∨ x + n ≤ 0 ∨ (logicalWidth s.cfg s.rot : Int) ≤ x) →
      exec (.hline x y n c) s = .next s)
    ∧ ((n ≤ 0 ∨ x < 0 ∨ (logicalWidth s.cfg s.rot : Int) ≤ x ∨ y + n ≤ 0 ∨ (logicalHeight s.cfg s.rot : Int) ≤ y) →
      exec (.vline x y n c) s = .next s)

/-- R132: on a panel whose height is a multiple of 8, HRUN applies the colour to exactly the requested pixels that lie on the panel,
whatever the run, and to no other bit of either plane. -/
def Obligations.HorizontalRunChangesExactlyItsPixels : Prop :=
  ∀ (s : State) (x y w : Int) (c : Colour), s.wf → s.cfg.height % 8 = 0 →
    ∃ t, applyAccesses c (hrunAccesses s.cfg x y w) s = .next t
      ∧ ∀ px py : Nat, px < s.cfg.width → py < s.cfg.height →
          pixBW t px py = (pixBW s px py).map
            (fun old => if (py : Int) = y ∧ x ≤ px ∧ (px : Int) < x + w then bwAfter c old else old)
          ∧ pixHL t px py = (pixHL s px py).map
            (fun old => if (py : Int) = y ∧ x ≤ px ∧ (px : Int) < x + w then hlAfter c old else old)

/-- R131: on a panel whose height is a multiple of 8, VRUN applies the colour to the `h` rows of its column that start at the top
row of the word holding the clamped start, not at the start, and to no other bit of either plane. -/
def Obligations.VerticalRunStartsAtTheTopOfItsWord : Prop :=
  ∀ (s : State) (x y h q n : Int) (c : Colour), s.wf → s.cfg.height % 8 = 0 →
    q = (clampSpan s.cfg.height y h).1 / 8 → n = (clampSpan s.cfg.height y h).2 →
    ∃ t, applyAccesses c (vrunAccesses s.cfg x y h) s = .next t
      ∧ ∀ px py : Nat, px < s.cfg.width → py < s.cfg.height →
          pixBW t px py = (pixBW s px py).map
            (fun old => if (px : Int) = x ∧ 8 * q ≤ py ∧ (py : Int) < 8 * q + n then bwAfter c old else old)
          ∧ pixHL t px py = (pixHL s px py).map
            (fun old => if (px : Int) = x ∧ 8 * q ≤ py ∧ (py : Int) < 8 * q + n then hlAfter c old else old)

/-- 95_test_vectors.md P1, R233: the round trip of HLINE. On a panel whose height is a multiple of 8, a BLACK or WHITE run inside
the logical panel that ends in HRUN, or in VRUN with a start row that is a multiple of 8, reads back as its colour at its logical
coordinates; every other black/white bit and every highlight bit is unchanged. -/
def Obligations.HlineRoundTrip : Prop :=
  ∀ (s : State) (x y w : Nat) (c : Colour), s.wf → s.cfg.height % 8 = 0 → (c = .black ∨ c = .white) → 1 ≤ w →
    x + w ≤ logicalWidth s.cfg s.rot → y < logicalHeight s.cfg s.rot →
    (s.rot = .deg90 → x % 8 = 0) → (s.rot = .deg270 → (s.cfg.height - x - w) % 8 = 0) →
    ∃ t, exec (.hline x y w c) s = .next t
      ∧ (∀ j, j < w → logPixBW t s.rot (x + j) y = some (decide (c = .black)))
      ∧ (∀ px py, px < logicalWidth s.cfg s.rot → py < logicalHeight s.cfg s.rot →
          ¬(py = y ∧ x ≤ px ∧ px < x + w) → logPixBW t s.rot px py = logPixBW s s.rot px py)
      ∧ (∀ px py, px < s.cfg.width → py < s.cfg.height → pixHL t px py = pixHL s px py)

/-- 95_test_vectors.md P1, R233: the round trip of VLINE. -/
def Obligations.VlineRoundTrip : Prop :=
  ∀ (s : State) (x y h : Nat) (c : Colour), s.wf → s.cfg.height % 8 = 0 → (c = .black ∨ c = .white) → 1 ≤ h →
    x < logicalWidth s.cfg s.rot → y + h ≤ logicalHeight s.cfg s.rot →
    (s.rot = .deg0 → y % 8 = 0) → (s.rot = .deg180 → (s.cfg.height - y - h) % 8 = 0) →
    ∃ t, exec (.vline x y h c) s = .next t
      ∧ (∀ j, j < h → logPixBW t s.rot x (y + j) = some (decide (c = .black)))
      ∧ (∀ px py, px < logicalWidth s.cfg s.rot → py < logicalHeight s.cfg s.rot →
          ¬(px = x ∧ y ≤ py ∧ py < y + h) → logPixBW t s.rot px py = logPixBW s s.rot px py)
      ∧ (∀ px py, px < s.cfg.width → py < s.cfg.height → pixHL t px py = pixHL s px py)

/-- R133 (g): the same run drawn twice: BLACK, WHITE and HIGHLIGHT are idempotent, INVERT twice restores the framebuffer; on every
panel, in both store variants. -/
def Obligations.SameRunDrawnTwice : Prop :=
  ∀ (i : Instr) (c : Colour) (s t u : State), s.wf →
    ((∃ x y n, i = .hline x y n c) ∨ ∃ x y n, i = .vline x y n c) →
    exec i s = .next t → exec i t = .next u →
      (c = .invert → ∀ a, fbPeek u a = fbPeek s a) ∧ (c ≠ .invert → ∀ a, fbPeek u a = fbPeek t a)

/-- R134: the external-memory events of a draw, for every operand, at every rotation, in every well-formed state. With `(x, len)`
(or `(y, len)`) the native run after the clamp, a horizontal run that is not a no-op emits exactly `len` pairs of a `read16` and a
`write16` at EXT_BASE + 2 * addr_j, j increasing; a vertical one `len / 8` pairs at consecutive words, then `len mod 8` pairs all at
the next word; a no-op none. With a resident store, and for a colour that is dropped (R111), no event. The values are in
HlineDrawsItsRun and VlineDrawsItsRun. -/
def Obligations.DrawEventCounts : Prop :=
  ∀ (i : Instr) (c : Colour) (r : Run) (s : State), s.wf →
    ((∃ x y w, i = .hline x y w c ∧ r = rotateHline s.cfg s.rot x y w)
      ∨ ∃ x y h, i = .vline x y h c ∧ r = rotateVline s.cfg s.rot x y h) →
    ∃ t, exec i s = .next t
      ∧ (s.cfg.store = .resident ∨ (c = .highlight ∧ s.cfg.hasHl = false) → newEvents s t = [])
      ∧ (s.cfg.store = .external → ¬(c = .highlight ∧ s.cfg.hasHl = false) →
          (r.axis = .horizontal → ∀ x len : Int, (x, len) = clampSpan s.cfg.width r.x r.len →
            (r.y < 0 ∨ (s.cfg.height : Int) ≤ r.y ∨ len ≤ 0 → newEvents s t = [])
            ∧ (0 ≤ r.y → r.y < s.cfg.height → 0 < len →
                ∃ pairs, newEvents s t = accessPairs pairs
                  ∧ pairs.map (·.1) = (List.range len.toNat).map fun j =>
                      s.cfg.extBase + 2 * ((x.toNat + j) * s.cfg.stride + r.y.toNat / 8)))
          ∧ (r.axis = .vertical → ∀ y len : Int, (y, len) = clampSpan s.cfg.height r.y r.len →
            (r.x < 0 ∨ (s.cfg.width : Int) ≤ r.x ∨ len ≤ 0 → newEvents s t = [])
            ∧ (0 ≤ r.x → r.x < s.cfg.width → 0 < len →
                ∃ pairs, newEvents s t = accessPairs pairs
                  ∧ pairs.map (·.1) =
                      ((List.range (len.toNat / 8)).map fun b =>
                        s.cfg.extBase + 2 * (r.x.toNat * s.cfg.stride + y.toNat / 8 + b))
                      ++ List.replicate (len.toNat % 8)
                        (s.cfg.extBase + 2 * (r.x.toNat * s.cfg.stride + y.toNat / 8 + len.toNat / 8)))))

/-- R60 (derived by the spec, decision D7; log entry 17): when HEIGHT is not a multiple of 8, the last `HEIGHT mod 8` rows of a
column are the same bits as the first rows of the next column, in every state. -/
def Obligations.LastPartialRowsAliasTheNextColumn : Prop :=
  ∀ (s : State) (x t : Nat), x + 1 < s.cfg.width → t < s.cfg.height % 8 →
    wordAddr s.cfg x (8 * s.cfg.stride + t) = wordAddr s.cfg (x + 1) t
    ∧ pixBW s x (8 * s.cfg.stride + t) = pixBW s (x + 1) t
    ∧ pixHL s x (8 * s.cfg.stride + t) = pixHL s (x + 1) t

/-! ## The store (20_memory.md) -/

/-- R52, R53: with a resident store, for `0 <= a < N`, `FbRead(a)` returns `FB[a]` with no side effect and no event, and
`FbWrite(a, v)` sets `FB[a]` to `v` and changes no other word and emits no event. -/
def Obligations.ResidentStoreReadsAndWrites : Prop :=
  ∀ (s : State) (a : Nat) (v : Word), s.wf → s.cfg.store = .resident → a < s.cfg.words →
    (∃ u, s.fb[a]? = some u ∧ fbRead a s = .ok (u, s))
    ∧ ∃ l, fbWrite a v s = .ok { s with fb := l } ∧ ∀ b, l[b]? = if b = a then some v else s.fb[b]?

/-- R55 (the byte order is derived by the spec from R54): `XmRead16(b)` returns the byte at `b` in bits 15..8 and the byte at `b +
1` in bits 7..0 and appends its event; `XmWrite16(b, v)` writes the high byte at `b` and the low byte at `b + 1`, no other byte, and
appends its event. -/
def Obligations.ExternalWordsAreHighByteFirst : Prop :=
  ∀ (s : State) (b : Nat) (v : Word), s.wf →
    xmRead16 b s = (s.xm.read b ++ s.xm.read (b + 1), { s with trace := s.trace ++ [.xmR16 b (s.xm.read16 b)] })
    ∧ ∃ m, xmWrite16 b v s = { s with xm := m, trace := s.trace ++ [.xmW16 b v] }
      ∧ m.wf ∧ m.read b = v.extractLsb' 8 8 ∧ m.read (b + 1) = v.extractLsb' 0 8
      ∧ ∀ a, a ≠ b → a ≠ b + 1 → m.read a = s.xm.read a

/-- R56, R57, R65: in both store variants a read of a word returns the value of the latest write to that word, and a write changes
no other word. -/
def Obligations.EveryReadSeesTheLatestWrite : Prop :=
  ∀ (s : State) (a : Nat) (v : Word), s.wf → a < s.cfg.words →
    ∃ t, fbWrite a v s = .ok t ∧ t.wf ∧ ∀ b, b < s.cfg.words →
      ∃ u w t', fbPeek s b = some u ∧ fbRead b t = .ok (w, t') ∧ w = if b = a then v else u

/-- Source §9 as R175 quotes it, and R52 to R57: the two storage variants share one read/modify/write interface. Two machines that
differ only in where their framebuffer lives, and hold the same words, hold the same words after the same draw. -/
def Obligations.DrawsDoTheSameInBothStores : Prop :=
  ∀ (i : Instr) (s s' : State), s.wf → s'.wf → s.cfg.store = .resident → s'.cfg.store = .external →
    s'.cfg = { s.cfg with store := .external, extBase := s'.cfg.extBase, pageBytes := s'.cfg.pageBytes } →
    s.rot = s'.rot → (∀ a, fbPeek s a = fbPeek s' a) → i.opcode ∈ [.hline, .vline] →
      ∃ t t', exec i s = .next t ∧ exec i s' = .next t' ∧ ∀ a, fbPeek t a = fbPeek t' a

/-! ## The framer (41_framer.md) -/

/-- R150: the bit-level expansion of `Tx(b)` is the eight data-out values b[7], b[6], ..., b[0]. -/
def Obligations.BytesGoOutMostSignificantBitFirst : Prop :=
  ∀ b : Byte, (bitsMsbFirst b).length = 8 ∧ ∀ j, j < 8 → (bitsMsbFirst b)[j]? = some (b.getLsbD (7 - j))

/-- R152 (the spec's decision D19): `DCMODE m` writes DC only and emits `Pin(DC, m)`, whatever CS is. -/
def Obligations.DcmodeWritesOnlyDc : Prop :=
  ∀ (m : Level) (s : State), s.ioen = true →
    exec (.dcmode m) s = .next { s with dc := m, trace := s.trace ++ [.pin .dc m] }

/-- R153: `SENDCMD code, ar`, from every state with IOEN = 1, also inside an open frame. -/
def Obligations.SendcmdSendsOneCommandByte : Prop :=
  ∀ (code : Byte) (s : State), s.ioen = true →
    exec (.sendcmd code true) s = .next { s with
      cs := true, dc := false, trace := s.trace ++ [.pin .cs false, .pin .dc false, .tx code, .pin .cs true] }
    ∧ exec (.sendcmd code false) s = .next { s with
      cs := false, dc := false, trace := s.trace ++ [.pin .cs false, .pin .dc false, .tx code] }

/-- R154: `SENDCMDDATA code, n, bytes`, `n = 0` included. -/
def Obligations.SendcmddataSendsOneFrame : Prop :=
  ∀ (code : Byte) (bytes : List Byte) (s : State), s.ioen = true →
    exec (.sendcmddata code bytes.length bytes) s = .next { s with
      cs := true, dc := true,
      trace := s.trace ++ [.pin .cs false, .pin .dc false, .tx code, .pin .dc true] ++ bytes.map .tx ++ [.pin .cs true] }

/-- R156: `SENDDATA n, bytes` sends the bytes under whatever CS and DC are, then releases chip-select; DC is unchanged. -/
def Obligations.SenddataSendsAndReleases : Prop :=
  ∀ (bytes : List Byte) (s : State), s.ioen = true →
    exec (.senddata bytes.length bytes) s = .next { s with
      cs := true, trace := s.trace ++ bytes.map .tx ++ [.pin .cs true] }

/-- R157 (the spec's decision D23): a framer operation or FLUSH issued while IOEN = 0 is refused. -/
def Obligations.BusOperationsNeedInit : Prop :=
  ∀ (s : State) (m ar : Bool) (code : Byte) (bytes : List Byte), s.ioen = false →
    exec (.dcmode m) s = .refused .ioNotConfigured
    ∧ exec (.sendcmd code ar) s = .refused .ioNotConfigured
    ∧ exec (.sendcmddata code bytes.length bytes) s = .refused .ioNotConfigured
    ∧ exec (.senddata bytes.length bytes) s = .refused .ioNotConfigured
    ∧ exec .flush s = .refused .ioNotConfigured

/-- R159: where chip-select ends: every framer operation and FLUSH releases it, except SENDCMD with ar = 0, which holds it, and
DCMODE, which leaves it. -/
def Obligations.ChipSelectAtTheEndOfAnOperation : Prop :=
  ∀ s t : State,
    (∀ code, exec (.sendcmd code true) s = .next t → t.cs = true)
    ∧ (∀ code, exec (.sendcmd code false) s = .next t → t.cs = false)
    ∧ (∀ code n bytes, exec (.sendcmddata code n bytes) s = .next t → t.cs = true)
    ∧ (∀ n bytes, exec (.senddata n bytes) s = .next t → t.cs = true)
    ∧ (exec .flush s = .next t → t.cs = true)
    ∧ (∀ m, exec (.dcmode m) s = .next t → t.cs = s.cs)

/-- R97: `SENDCMDDATA code, n, bytes` leaves the same state, with the same trace, as `SENDCMD code, 0; DCMODE 1; SENDDATA n, bytes`.
-/
def Obligations.SendcmddataEqualsItsThreeParts : Prop :=
  ∀ (code : Byte) (bytes : List Byte) (s : State), s.ioen = true →
    ∃ t, exec (.sendcmddata code bytes.length bytes) s = .next t
      ∧ andThen (exec (.sendcmd code false) s)
          (fun u => andThen (exec (.dcmode true) u) (exec (.senddata bytes.length bytes))) = .next t

/-- R85, R32: what the panel sees of a command-with-data frame: one byte in command mode, then the payload bytes in order in data
mode, all with chip-select asserted; and of SENDDATA, the bytes under the levels it found. -/
def Obligations.PanelSeesTheFrames : Prop :=
  ∀ (code : Byte) (bytes : List Byte) (s t : State), s.ioen = true →
    (exec (.sendcmddata code bytes.length bytes) s = .next t →
      sentBytes s.cs s.dc (newEvents s t)
        = { cs := false, dc := false, byte := code } :: bytes.map (fun b => { cs := false, dc := true, byte := b }))
    ∧ (exec (.senddata bytes.length bytes) s = .next t →
      sentBytes s.cs s.dc (newEvents s t) = bytes.map (fun b => { cs := s.cs, dc := s.dc, byte := b }))

/-! ## FLUSH (42_flush.md) -/

/-- R170, R173, R171, R174: in every well-formed state with IOEN = 1, resident or external, FLUSH completes; only CS, DC, PAGEBUF
and the trace change (PAGEBUF only when external), CS and DC end at 1; and the panel sees, with chip-select asserted, CMD_BW in
command mode then exactly N data bytes, byte `a` the low byte of word `a`, and, when CMD_HL is present, CMD_HL then exactly N data
bytes, byte `a` the high byte of word `a`; in all N + 1 or 2N + 2 transfers. -/
def Obligations.FlushStreamsEveryWord : Prop :=
  ∀ (s : State) (ws : List Word), s.wf → s.ioen = true →
    ws.length = s.cfg.words → (∀ a, a < s.cfg.words → fbPeek s a = ws[a]?) →
    ∃ t, exec .flush s = .next t ∧ SameButFlush s t ∧ t.cs = true ∧ t.dc = true
      ∧ (s.cfg.store = .resident → t.pagebuf = s.pagebuf)
      ∧ (∃ es, t.trace = s.trace ++ es)
      ∧ sentBytes s.cs s.dc (newEvents s t)
        = { cs := false, dc := false, byte := s.cfg.cmdBw }
            :: ws.map (fun v => { cs := false, dc := true, byte := v.extractLsb' 0 8 })
          ++ (match s.cfg.cmdHl with
              | none => []
              | some cmd => { cs := false, dc := false, byte := cmd }
                  :: ws.map (fun v => { cs := false, dc := true, byte := v.extractLsb' 8 8 }))
      ∧ ((newEvents s t).filter Event.isTx).length = (if s.cfg.cmdHl = none then s.cfg.words + 1 else 2 * s.cfg.words + 2)

/-- R171: the exact events of a flush of a resident framebuffer. -/
def Obligations.ResidentFlushEvents : Prop :=
  ∀ s : State, s.wf → s.ioen = true → s.cfg.store = .resident →
    exec .flush s = .next { s with
      cs := true, dc := true,
      trace := s.trace
        ++ ([.pin .cs false, .pin .dc false, .tx s.cfg.cmdBw, .pin .dc true]
            ++ s.fb.map (fun v => .tx (v.extractLsb' 0 8)) ++ [.pin .cs true])
        ++ (match s.cfg.cmdHl with
            | none => []
            | some cmd => [.pin .cs false, .pin .dc false, .tx cmd, .pin .dc true]
                ++ s.fb.map (fun v => .tx (v.extractLsb' 8 8)) ++ [.pin .cs true]) }

/-- R174 (two passes: the spec's decision D18; the short last chunk: D17; log entry 18): the exact events of a flush of an external
framebuffer. Each pass reads chunk after chunk, chunk `k` being min(PAGE_BYTES, 2N - off) bytes at EXT_BASE + off with `off = k *
PAGE_BYTES`, and after each read sends the odd-indexed bytes of the chunk (black/white pass) or the even-indexed ones (highlight
pass). Afterwards PAGEBUF holds the last chunk in its first bytes and, behind them, what the chunk before it left (log entry 4).
Only CS, DC, PAGEBUF and the trace change. -/
def Obligations.ExternalFlushEvents : Prop :=
  ∀ s : State, s.wf → s.ioen = true → s.cfg.store = .external →
    ∃ buf, exec .flush s = .next { s with
        cs := true, dc := true, pagebuf := buf,
        trace := s.trace ++ passEvents s.cfg.cmdBw .bw s.cfg s.xm
          ++ (match s.cfg.cmdHl with
              | none => []
              | some cmd => passEvents cmd .hl s.cfg s.xm) }
      ∧ buf.length = s.cfg.pageBytes
      ∧ ∀ j, j < s.cfg.pageBytes →
          buf[j]? =
            if j < chunkLength s.cfg (chunkCount s.cfg - 1) then some (s.xm.read (chunkBase s.cfg (chunkCount s.cfg - 1) + j))
            else if chunkCount s.cfg = 1 then s.pagebuf[j]?
            else some (s.xm.read (chunkBase s.cfg (chunkCount s.cfg - 2) + j))

/-- R175: if the external bytes hold the same words as a resident framebuffer, FLUSH emits the same sequence of Pin and Tx events in
both variants, pass by pass (`bw`, `bw'`: up to the release after N + 1 transfers; `hl`, `hl'`: the rest), and the external variant
additionally emits ceil(2N / PAGE_BYTES) events XmR for each pass. -/
def Obligations.FlushIsTheSameOnTheBusInBothStores : Prop :=
  ∀ s s' : State, s.wf → s'.wf → s.ioen = true → s'.ioen = true →
    s.cfg.store = .resident → s'.cfg.store = .external →
    s'.cfg = { s.cfg with store := .external, extBase := s'.cfg.extBase, pageBytes := s'.cfg.pageBytes } →
    (∀ a, fbPeek s a = fbPeek s' a) →
      ∃ t t' bw hl bw' hl', exec .flush s = .next t ∧ exec .flush s' = .next t'
        ∧ newEvents s t = bw ++ hl ∧ newEvents s' t' = bw' ++ hl'
        ∧ (bw.filter Event.isTx).length = s.cfg.words + 1 ∧ bw.getLast? = some (.pin .cs true)
        ∧ bw'.getLast? = some (.pin .cs true)
        ∧ bw'.filter Event.onBus = bw ∧ hl'.filter Event.onBus = hl
        ∧ (bw'.filter Event.isChunkRead).length = (2 * s'.cfg.words + s'.cfg.pageBytes - 1) / s'.cfg.pageBytes
        ∧ (hl'.filter Event.isChunkRead).length
          = (if s.cfg.cmdHl = none then 0 else (2 * s'.cfg.words + s'.cfg.pageBytes - 1) / s'.cfg.pageBytes)

/-- R170: two FLUSH operations with no draw between them emit the same events. Between them any number of steps may run, with any
operations but HLINE and VLINE among the commands the host still hands over (SETROT, the framer's, FLUSH, INIT and its wait), and
whatever the panel drives on BUSY; the second flush completes. -/
def Obligations.FlushTwiceEmitsTheSameEvents : Prop :=
  ∀ (n : Nat) (s t u : State), s.wf → exec .flush s = .next t →
    (∀ cmd ∈ t.commands, ∀ i, decode cmd = .ok i → i.opcode ∉ [.hline, .vline]) →
    Sys2Proof.core.run n t = .next u →
      ∃ v, exec .flush u = .next v ∧ newEvents u v = newEvents s t

/-! ## INIT (43_lifecycle.md) -/

/-- R185, R186, R188, R189: INIT sets IOEN (the spec's decision D23) and, only with rp = 1, pulses the panel reset line: high, 1 ms,
low, 10 ms, high, in that order, ending high. Nothing else is written. With BUSY released it completes at once; with BUSY asserted
it has done the same and holds. That a hold is a next state with phase `initWait`, and that BUSY is sampled at the step that accepts
INIT, are the model's choice (log entries 6, 7). -/
def Obligations.InitConfiguresAndPulses : Prop :=
  ∀ s : State,
    (s.busy = false →
      exec (.init false) s = .next { s with ioen := true, phase := .idle }
      ∧ exec (.init true) s = .next { s with
          ioen := true, rst := true, phase := .idle,
          trace := s.trace ++ [.pin .rst true, .delay 1, .pin .rst false, .delay 10, .pin .rst true] })
    ∧ (s.busy = true →
      exec (.init false) s = .next { s with ioen := true, phase := .initWait }
      ∧ exec (.init true) s = .next { s with
          ioen := true, rst := true, phase := .initWait,
          trace := s.trace ++ [.pin .rst true, .delay 1, .pin .rst false, .delay 10, .pin .rst true] })

/-- R188 (the spec's decisions D22, D30; log entries 6, 7): while BUSY is asserted INIT holds, and completes at the first step at
which the panel has released BUSY; as long as the panel does not release it the block holds and accepts no command, for any number
of steps. -/
def Obligations.InitHoldsUntilBusyIsReleased : Prop :=
  (∀ (rp : Bool) (s : State), s.busy = true → ∃ t, exec (.init rp) s = .next t ∧ t.phase = .initWait ∧ t.commands = s.commands)
  ∧ (∀ s : State, s.cfg.wf = true → s.phase = .initWait →
      step s = .next { s with
        busy := s.busyFeed.headD s.busy, busyFeed := s.busyFeed.tail,
        phase := if s.busyFeed.headD s.busy = true then .initWait else .idle })
  ∧ (∀ (n : Nat) (s : State), s.cfg.wf = true → s.phase = .initWait → s.busy = true →
      (∀ level ∈ s.busyFeed, level = true) →
        Sys2Proof.core.run n s = .next { s with busyFeed := s.busyFeed.drop n })

/-! ## Reset (70_reset_and_hazards.md) -/

/-- R221, R37 (each value is the spec's own decision; log entry 12): the state after reset, for every parameter choice, every
initial memory content and every input. The idle phase and the inputs' place in State are the model's (log entries 5, 6, 7); the
released BUSY, the empty feed and the empty list of `State.reset` are its choice, and no clause rests on them. -/
def Obligations.ResetValues : Prop :=
  (∀ (cfg : Config) (fb : List Word) (page : List Byte) (xm : Memory) (busy : Level) (feed : List Level)
      (commands : List Command),
    let s := State.resetWith cfg fb page xm busy feed commands
    s.cfg = cfg ∧ s.rot = .deg0 ∧ s.cs = true ∧ s.dc = true ∧ s.rst = true ∧ s.ioen = false ∧ s.fb = fb ∧ s.xm = xm
      ∧ s.pagebuf = page ∧ s.trace = [] ∧ s.phase = .idle ∧ s.busy = busy ∧ s.busyFeed = feed ∧ s.commands = commands)
  ∧ ∃ cfg fb page xm busy feed commands, State.reset = State.resetWith cfg fb page xm busy feed commands
end

