-- ==== Sys2Proof/Laws/Decode.lean ====
section
/-! SUPPORT. The command word's fields and the operand codes: what is written is what is read. -/

namespace Sys2Proof

theorem hasLength_iff (bs : List Byte) (n : Nat) : hasLength bs n = true ↔ bs.length = n := by
  induction bs generalizing n with
  | nil => cases n <;> simp [hasLength]
  | cons b rest ih => cases n <;> simp [hasLength, ih]

/-! ## The word and its fields (R88) -/

/-- A bit of a command word is the bit of the field it lies in (R88). -/
theorem Fields.getLsbD_toWord (f : Fields) (i : Nat) :
    f.toWord.getLsbD i =
      if i < 16 then f.len.getLsbD i
      else if i < 32 then f.y.getLsbD (i - 16)
      else if i < 48 then f.x.getLsbD (i - 32)
      else if i < 56 then f.code.getLsbD (i - 48)
      else if i < 57 then (BitVec.ofBool f.z).getLsbD (i - 56)
      else if i < 58 then (BitVec.ofBool f.flg).getLsbD (i - 57)
      else if i < 60 then f.sel.getLsbD (i - 58)
      else f.op.getLsbD (i - 60) := by
  unfold Fields.toWord
  refine (BitVec.getLsbD_append (n := 48) (m := 16)).trans ?_
  simp only [BitVec.getLsbD_append, Nat.sub_sub]
  split_ifs <;> first | rfl | omega

/-- Fields written into a command word are read from it (R88). -/
theorem Fields.ofWord_toWord (f : Fields) : Fields.ofWord f.toWord = f := by
  obtain ⟨op, sel, flg, z, code, x, y, len⟩ := f
  simp only [Fields.ofWord, Fields.mk.injEq]
  refine ⟨?_, ?_, ?_, ?_, ?_, ?_, ?_, ?_⟩
  case refine_3 => rw [Fields.getLsbD_toWord]; simp
  case refine_4 => rw [Fields.getLsbD_toWord]; simp
  all_goals
    apply BitVec.eq_of_getLsbD_eq
    intro i hi
    rw [BitVec.getLsbD_extractLsb', Fields.getLsbD_toWord]
    simp only [hi, decide_true, Bool.true_and]
    split_ifs <;> first | omega | (congr 1; omega)

/-- Fields read from a command word, written again, are the word (R88: the fields cover it). -/
theorem Fields.toWord_ofWord (w : CommandWord) : (Fields.ofWord w).toWord = w := by
  apply BitVec.eq_of_getLsbD_eq
  intro i hi
  rw [Fields.getLsbD_toWord]
  simp only [Fields.ofWord, BitVec.getLsbD_extractLsb', BitVec.getLsbD_ofBool]
  split_ifs
  case pos h => simp [h]
  all_goals
    first
    | (rw [show i = 57 by omega]; simp)
    | (rw [show i = 56 by omega]; simp)
    | (rw [decide_eq_true (by omega), Bool.true_and]; congr 1; omega)

/-- Two command words with the same fields are the same word. -/
theorem Fields.ofWord_inj {w v : CommandWord} : Fields.ofWord w = Fields.ofWord v ↔ w = v :=
  ⟨fun h => by rw [← Fields.toWord_ofWord w, h, Fields.toWord_ofWord], fun h => by rw [h]⟩

/-- The fields of a masked word are the masked fields. -/
theorem Fields.ofWord_and (w m : CommandWord) :
    Fields.ofWord (w &&& m) =
      { op := (Fields.ofWord w).op &&& (Fields.ofWord m).op
        sel := (Fields.ofWord w).sel &&& (Fields.ofWord m).sel
        flg := (Fields.ofWord w).flg && (Fields.ofWord m).flg
        z := (Fields.ofWord w).z && (Fields.ofWord m).z
        code := (Fields.ofWord w).code &&& (Fields.ofWord m).code
        x := (Fields.ofWord w).x &&& (Fields.ofWord m).x
        y := (Fields.ofWord w).y &&& (Fields.ofWord m).y
        len := (Fields.ofWord w).len &&& (Fields.ofWord m).len } := by
  simp [Fields.ofWord, BitVec.extractLsb'_and]

/-- When a command word has a field set that its operation does not use (R94). -/
theorem Fields.unusedZero_eq_false (u : FieldUse) (f : Fields) :
    f.unusedZero u = false ↔
      f.z = true ∨ (u.sel = false ∧ f.sel ≠ 0) ∨ (u.flg = false ∧ f.flg = true) ∨ (u.code = false ∧ f.code ≠ 0)
        ∨ (u.x = false ∧ f.x ≠ 0) ∨ (u.y = false ∧ f.y ≠ 0) ∨ (u.len = false ∧ f.len ≠ 0) := by
  simp only [Fields.unusedZero, Bool.and_eq_false_iff, Bool.or_eq_false_iff, Bool.not_eq_false', beq_eq_false_iff_ne,
    or_assoc]

/-- When decoding rejects a command word as reserved (R94). -/
theorem decode_eq_reserved (w : CommandWord) (p : List Byte) :
    decode { word := w, payload := p } = .error .reservedEncoding ↔
      opcodeOf (Fields.ofWord w).op = none
        ∨ ∃ o, opcodeOf (Fields.ofWord w).op = some o ∧ (Fields.ofWord w).unusedZero o.uses = false := by
  simp only [decode, decodeFields]
  split
  · next h => simp [h]
  · next o h =>
    rw [h]
    simp only [reduceCtorEq, Option.some.injEq, exists_eq_left', false_or]
    split_ifs <;> simp_all

/-- What decoding answers for a word that is not reserved. -/
theorem decode_of_opcode {w : CommandWord} {o : Opcode} (h : opcodeOf (Fields.ofWord w).op = some o)
    (hu : (Fields.ofWord w).unusedZero o.uses = true) (p : List Byte) :
    decode { word := w, payload := p } =
      if p.length = o.payloadCount (Fields.ofWord w) then .ok (o.instr (Fields.ofWord w) p) else .error .badPayload := by
  simp only [decode, decodeFields, h, hu]
  by_cases hl : p.length = o.payloadCount (Fields.ofWord w)
  · simp [hl, (hasLength_iff _ _).2 hl]
  · have : hasLength p (o.payloadCount (Fields.ofWord w)) = false := by
      rw [← Bool.not_eq_true, hasLength_iff]; exact hl
    simp [hl, this]

/-! ## Operand codes -/

@[simp] theorem opcodeOf_bits (o : Opcode) : opcodeOf o.bits = some o := by cases o <;> rfl

theorem bits_of_opcodeOf {op : BitVec 4} {o : Opcode} (h : opcodeOf op = some o) : o.bits = op := by
  revert h; revert op; cases o <;> decide

@[simp] theorem colourOf_bits (c : Colour) : colourOf c.bits = c := by cases c <;> rfl

@[simp] theorem bits_colourOf (b : BitVec 2) : (colourOf b).bits = b := by revert b; decide

@[simp] theorem rotationOf_bits (r : Rotation) : rotationOf r.bits = r := by cases r <;> rfl

@[simp] theorem bits_rotationOf (b : BitVec 2) : (rotationOf b).bits = b := by revert b; decide

/-- A signed operand that fits its field is read as it was written (R92). -/
theorem sext16_signed16 {v : Int} (h : fitsSigned16 v = true) : sext16 (signed16 v) = v := by
  simp only [fitsSigned16, Bool.and_eq_true, decide_eq_true_eq] at h
  unfold sext16 signed16
  rw [BitVec.toInt_ofInt]
  exact Int.bmod_eq_of_le (by norm_num; omega) (by norm_num; omega)

@[simp] theorem signed16_sext16 (v : BitVec 16) : signed16 (sext16 v) = v := BitVec.ofInt_toInt

theorem fitsSigned16_sext16 (v : BitVec 16) : fitsSigned16 (sext16 v) = true := by
  have h1 : -2 ^ (16 - 1) ≤ v.toInt := BitVec.le_toInt v
  have h2 : v.toInt < 2 ^ (16 - 1) := BitVec.toInt_lt
  have h3 : -32768 ≤ sext16 v ∧ sext16 v ≤ 32767 := by unfold sext16; omega
  simpa [fitsSigned16] using h3

/-- A count that fits its field is read as it was written (R93). -/
theorem toNat_count {n : Nat} (h : fitsCount n = true) : (BitVec.ofNat 16 n).toNat = n := by
  simp only [fitsCount, decide_eq_true_eq] at h
  simp only [BitVec.toNat_ofNat]
  omega

theorem fitsCount_toNat (v : BitVec 16) : fitsCount v.toNat = true := by
  have := v.isLt
  simp only [fitsCount, decide_eq_true_eq]
  omega

/-! ## The opcode table -/

/-- The fields of the mask of a row: everything but the fields its operation uses. -/
def FieldUse.mask (u : FieldUse) : Fields where
  op   := 0xF
  sel  := if u.sel then 0 else 0x3
  flg  := !u.flg
  z    := true
  code := if u.code then 0 else 0xFF
  x    := if u.x then 0 else 0xFFFF
  y    := if u.y then 0 else 0xFFFF
  len  := if u.len then 0 else 0xFFFF

/-- Every row of opcode_table.json masks all but the fields R90 gives its operation, and fixes OP alone. -/
theorem opcodeTable_rows :
    ∀ r ∈ opcodeTable, Fields.ofWord r.mask = r.opcode.uses.mask ∧ Fields.ofWord r.pattern = r.opcode.blank := by
  decide

theorem opcodeOf_eq_some {op : BitVec 4} {o : Opcode} : opcodeOf op = some o ↔ op = o.bits :=
  ⟨fun h => (bits_of_opcodeOf h).symm, fun h => by rw [h, opcodeOf_bits]⟩

theorem and_mask {n : Nat} (b : Bool) (v : BitVec n) :
    v &&& (if b then 0 else BitVec.allOnes n) = 0 ↔ (b || v == 0) = true := by
  cases b <;> simp

/-- A word carries the fixed bits of a row exactly when it has the row's opcode and no unused field set (R90, R94). -/
theorem covers_iff {r : TableRow} (hr : r ∈ opcodeTable) (w : CommandWord) :
    w &&& r.mask = r.pattern ↔
      opcodeOf (Fields.ofWord w).op = some r.opcode ∧ (Fields.ofWord w).unusedZero r.opcode.uses = true := by
  obtain ⟨hm, hp⟩ := opcodeTable_rows r hr
  rw [← Fields.ofWord_inj, Fields.ofWord_and, hm, hp, opcodeOf_eq_some]
  generalize Fields.ofWord w = f
  generalize r.opcode.uses = u
  have h4 : f.op &&& 0xF = f.op := BitVec.and_allOnes
  have hs := and_mask u.sel f.sel
  have hc := and_mask u.code f.code
  have hx := and_mask u.x f.x
  have hy := and_mask u.y f.y
  have hl := and_mask u.len f.len
  simp only [FieldUse.mask, Opcode.blank, Fields.mk.injEq, h4, Fields.unusedZero, Bool.and_eq_true, Bool.and_true]
  have hf : (f.flg && !u.flg) = false ↔ (u.flg || !f.flg) = true := by cases f.flg <;> cases u.flg <;> decide
  have hz : f.z = false ↔ (!f.z) = true := by cases f.z <;> decide
  rw [← hs, ← hc, ← hx, ← hy, ← hl, ← hf, ← hz]
  constructor
  · rintro ⟨a, b, c, d, e, g, i, j⟩; exact ⟨a, ⟨⟨⟨⟨⟨d, b⟩, c⟩, e⟩, g⟩, i⟩, j⟩
  · rintro ⟨a, ⟨⟨⟨⟨⟨d, b⟩, c⟩, e⟩, g⟩, i⟩, j⟩; exact ⟨a, b, c, d, e, g, i, j⟩

end Sys2Proof
end

