-- ==== Sys2Proof/Laws/State.lean ====
section
/-! SUPPORT. One lemma per field of State per update, so that no later proof unfolds a record update. -/

namespace Sys2Proof.Machine

variable (s : State)

/-! ### setRot -/

@[simp] theorem State.setRot_cfg (r : Rotation) : (s.setRot r).cfg = s.cfg := rfl
@[simp] theorem State.setRot_rot (r : Rotation) : (s.setRot r).rot = r := rfl
@[simp] theorem State.setRot_cs (r : Rotation) : (s.setRot r).cs = s.cs := rfl
@[simp] theorem State.setRot_dc (r : Rotation) : (s.setRot r).dc = s.dc := rfl
@[simp] theorem State.setRot_rst (r : Rotation) : (s.setRot r).rst = s.rst := rfl
@[simp] theorem State.setRot_ioen (r : Rotation) : (s.setRot r).ioen = s.ioen := rfl
@[simp] theorem State.setRot_fb (r : Rotation) : (s.setRot r).fb = s.fb := rfl
@[simp] theorem State.setRot_xm (r : Rotation) : (s.setRot r).xm = s.xm := rfl
@[simp] theorem State.setRot_pagebuf (r : Rotation) : (s.setRot r).pagebuf = s.pagebuf := rfl
@[simp] theorem State.setRot_trace (r : Rotation) : (s.setRot r).trace = s.trace := rfl
@[simp] theorem State.setRot_phase (r : Rotation) : (s.setRot r).phase = s.phase := rfl
@[simp] theorem State.setRot_busy (r : Rotation) : (s.setRot r).busy = s.busy := rfl
@[simp] theorem State.setRot_busyFeed (r : Rotation) : (s.setRot r).busyFeed = s.busyFeed := rfl
@[simp] theorem State.setRot_commands (r : Rotation) : (s.setRot r).commands = s.commands := rfl

/-! ### setIoen -/

@[simp] theorem State.setIoen_cfg (v : Bool) : (s.setIoen v).cfg = s.cfg := rfl
@[simp] theorem State.setIoen_rot (v : Bool) : (s.setIoen v).rot = s.rot := rfl
@[simp] theorem State.setIoen_cs (v : Bool) : (s.setIoen v).cs = s.cs := rfl
@[simp] theorem State.setIoen_dc (v : Bool) : (s.setIoen v).dc = s.dc := rfl
@[simp] theorem State.setIoen_rst (v : Bool) : (s.setIoen v).rst = s.rst := rfl
@[simp] theorem State.setIoen_ioen (v : Bool) : (s.setIoen v).ioen = v := rfl
@[simp] theorem State.setIoen_fb (v : Bool) : (s.setIoen v).fb = s.fb := rfl
@[simp] theorem State.setIoen_xm (v : Bool) : (s.setIoen v).xm = s.xm := rfl
@[simp] theorem State.setIoen_pagebuf (v : Bool) : (s.setIoen v).pagebuf = s.pagebuf := rfl
@[simp] theorem State.setIoen_trace (v : Bool) : (s.setIoen v).trace = s.trace := rfl
@[simp] theorem State.setIoen_phase (v : Bool) : (s.setIoen v).phase = s.phase := rfl
@[simp] theorem State.setIoen_busy (v : Bool) : (s.setIoen v).busy = s.busy := rfl
@[simp] theorem State.setIoen_busyFeed (v : Bool) : (s.setIoen v).busyFeed = s.busyFeed := rfl
@[simp] theorem State.setIoen_commands (v : Bool) : (s.setIoen v).commands = s.commands := rfl

/-! ### setFb -/

@[simp] theorem State.setFb_cfg (l : List Word) : (s.setFb l).cfg = s.cfg := rfl
@[simp] theorem State.setFb_rot (l : List Word) : (s.setFb l).rot = s.rot := rfl
@[simp] theorem State.setFb_cs (l : List Word) : (s.setFb l).cs = s.cs := rfl
@[simp] theorem State.setFb_dc (l : List Word) : (s.setFb l).dc = s.dc := rfl
@[simp] theorem State.setFb_rst (l : List Word) : (s.setFb l).rst = s.rst := rfl
@[simp] theorem State.setFb_ioen (l : List Word) : (s.setFb l).ioen = s.ioen := rfl
@[simp] theorem State.setFb_fb (l : List Word) : (s.setFb l).fb = l := rfl
@[simp] theorem State.setFb_xm (l : List Word) : (s.setFb l).xm = s.xm := rfl
@[simp] theorem State.setFb_pagebuf (l : List Word) : (s.setFb l).pagebuf = s.pagebuf := rfl
@[simp] theorem State.setFb_trace (l : List Word) : (s.setFb l).trace = s.trace := rfl
@[simp] theorem State.setFb_phase (l : List Word) : (s.setFb l).phase = s.phase := rfl
@[simp] theorem State.setFb_busy (l : List Word) : (s.setFb l).busy = s.busy := rfl
@[simp] theorem State.setFb_busyFeed (l : List Word) : (s.setFb l).busyFeed = s.busyFeed := rfl
@[simp] theorem State.setFb_commands (l : List Word) : (s.setFb l).commands = s.commands := rfl

/-! ### setXm -/

@[simp] theorem State.setXm_cfg (m : Memory) : (s.setXm m).cfg = s.cfg := rfl
@[simp] theorem State.setXm_rot (m : Memory) : (s.setXm m).rot = s.rot := rfl
@[simp] theorem State.setXm_cs (m : Memory) : (s.setXm m).cs = s.cs := rfl
@[simp] theorem State.setXm_dc (m : Memory) : (s.setXm m).dc = s.dc := rfl
@[simp] theorem State.setXm_rst (m : Memory) : (s.setXm m).rst = s.rst := rfl
@[simp] theorem State.setXm_ioen (m : Memory) : (s.setXm m).ioen = s.ioen := rfl
@[simp] theorem State.setXm_fb (m : Memory) : (s.setXm m).fb = s.fb := rfl
@[simp] theorem State.setXm_xm (m : Memory) : (s.setXm m).xm = m := rfl
@[simp] theorem State.setXm_pagebuf (m : Memory) : (s.setXm m).pagebuf = s.pagebuf := rfl
@[simp] theorem State.setXm_trace (m : Memory) : (s.setXm m).trace = s.trace := rfl
@[simp] theorem State.setXm_phase (m : Memory) : (s.setXm m).phase = s.phase := rfl
@[simp] theorem State.setXm_busy (m : Memory) : (s.setXm m).busy = s.busy := rfl
@[simp] theorem State.setXm_busyFeed (m : Memory) : (s.setXm m).busyFeed = s.busyFeed := rfl
@[simp] theorem State.setXm_commands (m : Memory) : (s.setXm m).commands = s.commands := rfl

/-! ### setPagebuf -/

@[simp] theorem State.setPagebuf_cfg (l : List Byte) : (s.setPagebuf l).cfg = s.cfg := rfl
@[simp] theorem State.setPagebuf_rot (l : List Byte) : (s.setPagebuf l).rot = s.rot := rfl
@[simp] theorem State.setPagebuf_cs (l : List Byte) : (s.setPagebuf l).cs = s.cs := rfl
@[simp] theorem State.setPagebuf_dc (l : List Byte) : (s.setPagebuf l).dc = s.dc := rfl
@[simp] theorem State.setPagebuf_rst (l : List Byte) : (s.setPagebuf l).rst = s.rst := rfl
@[simp] theorem State.setPagebuf_ioen (l : List Byte) : (s.setPagebuf l).ioen = s.ioen := rfl
@[simp] theorem State.setPagebuf_fb (l : List Byte) : (s.setPagebuf l).fb = s.fb := rfl
@[simp] theorem State.setPagebuf_xm (l : List Byte) : (s.setPagebuf l).xm = s.xm := rfl
@[simp] theorem State.setPagebuf_pagebuf (l : List Byte) : (s.setPagebuf l).pagebuf = l := rfl
@[simp] theorem State.setPagebuf_trace (l : List Byte) : (s.setPagebuf l).trace = s.trace := rfl
@[simp] theorem State.setPagebuf_phase (l : List Byte) : (s.setPagebuf l).phase = s.phase := rfl
@[simp] theorem State.setPagebuf_busy (l : List Byte) : (s.setPagebuf l).busy = s.busy := rfl
@[simp] theorem State.setPagebuf_busyFeed (l : List Byte) : (s.setPagebuf l).busyFeed = s.busyFeed := rfl
@[simp] theorem State.setPagebuf_commands (l : List Byte) : (s.setPagebuf l).commands = s.commands := rfl

/-! ### setPhase -/

@[simp] theorem State.setPhase_cfg (p : Phase) : (s.setPhase p).cfg = s.cfg := rfl
@[simp] theorem State.setPhase_rot (p : Phase) : (s.setPhase p).rot = s.rot := rfl
@[simp] theorem State.setPhase_cs (p : Phase) : (s.setPhase p).cs = s.cs := rfl
@[simp] theorem State.setPhase_dc (p : Phase) : (s.setPhase p).dc = s.dc := rfl
@[simp] theorem State.setPhase_rst (p : Phase) : (s.setPhase p).rst = s.rst := rfl
@[simp] theorem State.setPhase_ioen (p : Phase) : (s.setPhase p).ioen = s.ioen := rfl
@[simp] theorem State.setPhase_fb (p : Phase) : (s.setPhase p).fb = s.fb := rfl
@[simp] theorem State.setPhase_xm (p : Phase) : (s.setPhase p).xm = s.xm := rfl
@[simp] theorem State.setPhase_pagebuf (p : Phase) : (s.setPhase p).pagebuf = s.pagebuf := rfl
@[simp] theorem State.setPhase_trace (p : Phase) : (s.setPhase p).trace = s.trace := rfl
@[simp] theorem State.setPhase_phase (p : Phase) : (s.setPhase p).phase = p := rfl
@[simp] theorem State.setPhase_busy (p : Phase) : (s.setPhase p).busy = s.busy := rfl
@[simp] theorem State.setPhase_busyFeed (p : Phase) : (s.setPhase p).busyFeed = s.busyFeed := rfl
@[simp] theorem State.setPhase_commands (p : Phase) : (s.setPhase p).commands = s.commands := rfl

/-! ### setCommands -/

@[simp] theorem State.setCommands_cfg (q : List Command) : (s.setCommands q).cfg = s.cfg := rfl
@[simp] theorem State.setCommands_rot (q : List Command) : (s.setCommands q).rot = s.rot := rfl
@[simp] theorem State.setCommands_cs (q : List Command) : (s.setCommands q).cs = s.cs := rfl
@[simp] theorem State.setCommands_dc (q : List Command) : (s.setCommands q).dc = s.dc := rfl
@[simp] theorem State.setCommands_rst (q : List Command) : (s.setCommands q).rst = s.rst := rfl
@[simp] theorem State.setCommands_ioen (q : List Command) : (s.setCommands q).ioen = s.ioen := rfl
@[simp] theorem State.setCommands_fb (q : List Command) : (s.setCommands q).fb = s.fb := rfl
@[simp] theorem State.setCommands_xm (q : List Command) : (s.setCommands q).xm = s.xm := rfl
@[simp] theorem State.setCommands_pagebuf (q : List Command) : (s.setCommands q).pagebuf = s.pagebuf := rfl
@[simp] theorem State.setCommands_trace (q : List Command) : (s.setCommands q).trace = s.trace := rfl
@[simp] theorem State.setCommands_phase (q : List Command) : (s.setCommands q).phase = s.phase := rfl
@[simp] theorem State.setCommands_busy (q : List Command) : (s.setCommands q).busy = s.busy := rfl
@[simp] theorem State.setCommands_busyFeed (q : List Command) : (s.setCommands q).busyFeed = s.busyFeed := rfl
@[simp] theorem State.setCommands_commands (q : List Command) : (s.setCommands q).commands = q := rfl

/-! ### emit -/

@[simp] theorem State.emit_cfg (es : List Event) : (s.emit es).cfg = s.cfg := rfl
@[simp] theorem State.emit_rot (es : List Event) : (s.emit es).rot = s.rot := rfl
@[simp] theorem State.emit_cs (es : List Event) : (s.emit es).cs = s.cs := rfl
@[simp] theorem State.emit_dc (es : List Event) : (s.emit es).dc = s.dc := rfl
@[simp] theorem State.emit_rst (es : List Event) : (s.emit es).rst = s.rst := rfl
@[simp] theorem State.emit_ioen (es : List Event) : (s.emit es).ioen = s.ioen := rfl
@[simp] theorem State.emit_fb (es : List Event) : (s.emit es).fb = s.fb := rfl
@[simp] theorem State.emit_xm (es : List Event) : (s.emit es).xm = s.xm := rfl
@[simp] theorem State.emit_pagebuf (es : List Event) : (s.emit es).pagebuf = s.pagebuf := rfl
@[simp] theorem State.emit_trace (es : List Event) : (s.emit es).trace = s.trace ++ es := rfl
@[simp] theorem State.emit_phase (es : List Event) : (s.emit es).phase = s.phase := rfl
@[simp] theorem State.emit_busy (es : List Event) : (s.emit es).busy = s.busy := rfl
@[simp] theorem State.emit_busyFeed (es : List Event) : (s.emit es).busyFeed = s.busyFeed := rfl
@[simp] theorem State.emit_commands (es : List Event) : (s.emit es).commands = s.commands := rfl

/-! ### setLatch -/

@[simp] theorem State.setLatch_cfg (p : Pin) (v : Level) : (s.setLatch p v).cfg = s.cfg := by cases p <;> rfl
@[simp] theorem State.setLatch_rot (p : Pin) (v : Level) : (s.setLatch p v).rot = s.rot := by cases p <;> rfl
@[simp] theorem State.setLatch_cs (p : Pin) (v : Level) :
    (s.setLatch p v).cs = if p = .cs then v else s.cs := by cases p <;> rfl
@[simp] theorem State.setLatch_dc (p : Pin) (v : Level) :
    (s.setLatch p v).dc = if p = .dc then v else s.dc := by cases p <;> rfl
@[simp] theorem State.setLatch_rst (p : Pin) (v : Level) :
    (s.setLatch p v).rst = if p = .rst then v else s.rst := by cases p <;> rfl
@[simp] theorem State.setLatch_ioen (p : Pin) (v : Level) : (s.setLatch p v).ioen = s.ioen := by cases p <;> rfl
@[simp] theorem State.setLatch_fb (p : Pin) (v : Level) : (s.setLatch p v).fb = s.fb := by cases p <;> rfl
@[simp] theorem State.setLatch_xm (p : Pin) (v : Level) : (s.setLatch p v).xm = s.xm := by cases p <;> rfl
@[simp] theorem State.setLatch_pagebuf (p : Pin) (v : Level) : (s.setLatch p v).pagebuf = s.pagebuf := by cases p <;> rfl
@[simp] theorem State.setLatch_trace (p : Pin) (v : Level) : (s.setLatch p v).trace = s.trace := by cases p <;> rfl
@[simp] theorem State.setLatch_phase (p : Pin) (v : Level) : (s.setLatch p v).phase = s.phase := by cases p <;> rfl
@[simp] theorem State.setLatch_busy (p : Pin) (v : Level) : (s.setLatch p v).busy = s.busy := by cases p <;> rfl
@[simp] theorem State.setLatch_busyFeed (p : Pin) (v : Level) : (s.setLatch p v).busyFeed = s.busyFeed := by cases p <;> rfl
@[simp] theorem State.setLatch_commands (p : Pin) (v : Level) : (s.setLatch p v).commands = s.commands := by cases p <;> rfl

/-! ### panelMove: only the BUSY inputs move -/

@[simp] theorem panelMove_cfg : (panelMove s).cfg = s.cfg := by unfold panelMove; split <;> rfl
@[simp] theorem panelMove_rot : (panelMove s).rot = s.rot := by unfold panelMove; split <;> rfl
@[simp] theorem panelMove_cs : (panelMove s).cs = s.cs := by unfold panelMove; split <;> rfl
@[simp] theorem panelMove_dc : (panelMove s).dc = s.dc := by unfold panelMove; split <;> rfl
@[simp] theorem panelMove_rst : (panelMove s).rst = s.rst := by unfold panelMove; split <;> rfl
@[simp] theorem panelMove_ioen : (panelMove s).ioen = s.ioen := by unfold panelMove; split <;> rfl
@[simp] theorem panelMove_fb : (panelMove s).fb = s.fb := by unfold panelMove; split <;> rfl
@[simp] theorem panelMove_xm : (panelMove s).xm = s.xm := by unfold panelMove; split <;> rfl
@[simp] theorem panelMove_pagebuf : (panelMove s).pagebuf = s.pagebuf := by unfold panelMove; split <;> rfl
@[simp] theorem panelMove_trace : (panelMove s).trace = s.trace := by unfold panelMove; split <;> rfl
@[simp] theorem panelMove_phase : (panelMove s).phase = s.phase := by unfold panelMove; split <;> rfl
@[simp] theorem panelMove_commands : (panelMove s).commands = s.commands := by unfold panelMove; split <;> rfl

/-- The panel's move, whole: the next level of the feed, or the level there is (R28). -/
theorem panelMove_eq :
    panelMove s = { s with busy := s.busyFeed.headD s.busy, busyFeed := s.busyFeed.tail } := by
  unfold panelMove
  split
  · next h => simp only [h, List.headD_nil, List.tail_nil]; rw [← h]
  · next h => simp [h]

/-! ### Latches -/

@[simp] theorem State.latch_cs : s.latch .cs = s.cs := rfl
@[simp] theorem State.latch_dc : s.latch .dc = s.dc := rfl
@[simp] theorem State.latch_rst : s.latch .rst = s.rst := rfl

/-- A latch reads what was written to it, and the other latches read as before. -/
theorem State.latch_setLatch (p q : Pin) (v : Level) : (s.setLatch p v).latch q = if p = q then v else s.latch q := by
  cases p <;> cases q <;> rfl

/-! ### Two emissions are one -/

@[simp] theorem State.emit_emit (es fs : List Event) : (s.emit es).emit fs = s.emit (es ++ fs) := by
  simp [State.emit]

@[simp] theorem State.emit_nil : s.emit [] = s := by simp [State.emit]

end Sys2Proof.Machine
end

