-- ==== Sys2Proof/Laws/Memory.lean ====
section
/-! SUPPORT. The external memory: read after write, the canonical form, and what one word access does to it. -/

namespace Sys2Proof.Machine

/-! ## The list of cells -/

theorem cellsRead_none_of_lt {cells : List Host.Cell} {a : Nat} (h : ∀ c ∈ cells, a < c.1) : cellsRead cells a = none := by
  induction cells with
  | nil => rfl
  | cons c rest ih =>
    have hc := h c (by simp)
    have : c.1 ≠ a := by omega
    simp only [cellsRead, this, if_false]
    exact ih fun d hd => h d (by simp [hd])

theorem cellsRead_erase_ne (cells : List Host.Cell) {a b : Nat} (h : b ≠ a) :
    cellsRead (cellsErase cells a) b = cellsRead cells b := by
  induction cells with
  | nil => rfl
  | cons c rest ih =>
    obtain ⟨k, v⟩ := c
    simp only [cellsErase]
    split
    · next hk => subst hk; simp [cellsRead, Ne.symm h]
    · simp [cellsRead, ih]

theorem cellsRead_erase_self {cells : List Host.Cell} (h : cells.Pairwise (fun c d => c.1 < d.1)) (a : Nat) :
    cellsRead (cellsErase cells a) a = none := by
  induction cells with
  | nil => rfl
  | cons c rest ih =>
    obtain ⟨k, v⟩ := c
    rw [List.pairwise_cons] at h
    simp only [cellsErase]
    split
    · next hk => subst hk; exact cellsRead_none_of_lt h.1
    · next hk => simp [cellsRead, hk, ih h.2]

theorem cellsRead_insert (cells : List Host.Cell) (a b : Nat) (v : Byte) :
    cellsRead (cellsInsert cells a v) b = if b = a then some v else cellsRead cells b := by
  induction cells with
  | nil => simp [cellsInsert, cellsRead, eq_comm]
  | cons c rest ih =>
    obtain ⟨k, u⟩ := c
    simp only [cellsInsert]
    split
    · simp [cellsRead, eq_comm]
    · split
      · next hk => subst hk; by_cases hb : b = k <;> simp [cellsRead, hb, eq_comm]
      · next hk =>
        simp only [cellsRead, ih]
        by_cases hb : k = b
        · subst hb; simp [hk]
        · simp [hb]

theorem mem_cellsErase {cells : List Host.Cell} {a : Nat} {c : Host.Cell} (h : c ∈ cellsErase cells a) : c ∈ cells := by
  induction cells with
  | nil => simp [cellsErase] at h
  | cons d rest ih =>
    obtain ⟨k, v⟩ := d
    simp only [cellsErase] at h
    split at h
    · simp [h]
    · rcases List.mem_cons.1 h with rfl | h
      · simp
      · simp [ih h]

theorem mem_cellsInsert {cells : List Host.Cell} {a : Nat} {v : Byte} {c : Host.Cell} (h : c ∈ cellsInsert cells a v) :
    c = (a, v) ∨ c ∈ cells := by
  induction cells with
  | nil => simpa [cellsInsert] using h
  | cons d rest ih =>
    obtain ⟨k, u⟩ := d
    simp only [cellsInsert] at h
    split at h
    · rcases List.mem_cons.1 h with rfl | h
      · exact .inl rfl
      · exact .inr h
    · split at h
      · rcases List.mem_cons.1 h with rfl | h
        · exact .inl rfl
        · exact .inr (by simp [h])
      · rcases List.mem_cons.1 h with rfl | h
        · exact .inr (by simp)
        · rcases ih h with h | h
          · exact .inl h
          · exact .inr (by simp [h])

theorem pairwise_cellsErase {cells : List Host.Cell} (h : cells.Pairwise (fun c d => c.1 < d.1)) (a : Nat) :
    (cellsErase cells a).Pairwise (fun c d => c.1 < d.1) := by
  induction cells with
  | nil => simp [cellsErase]
  | cons d rest ih =>
    obtain ⟨k, v⟩ := d
    rw [List.pairwise_cons] at h
    simp only [cellsErase]
    split
    · exact h.2
    · exact List.pairwise_cons.2 ⟨fun c hc => h.1 c (mem_cellsErase hc), ih h.2⟩

theorem pairwise_cellsInsert {cells : List Host.Cell} (h : cells.Pairwise (fun c d => c.1 < d.1)) (a : Nat) (v : Byte) :
    (cellsInsert cells a v).Pairwise (fun c d => c.1 < d.1) := by
  induction cells with
  | nil => simp [cellsInsert]
  | cons d rest ih =>
    obtain ⟨k, u⟩ := d
    have h' := h
    rw [List.pairwise_cons] at h
    simp only [cellsInsert]
    split
    · next hak =>
      refine List.pairwise_cons.2 ⟨fun c hc => ?_, h'⟩
      rcases List.mem_cons.1 hc with rfl | hc
      · exact hak
      · exact lt_trans hak (h.1 c hc)
    · split
      · next hk => subst hk; exact List.pairwise_cons.2 ⟨h.1, h.2⟩
      · next hak hk =>
        refine List.pairwise_cons.2 ⟨fun c hc => ?_, ih h.2⟩
        rcases mem_cellsInsert hc with rfl | hc
        · show k < a; omega
        · exact h.1 c hc

theorem cellsRead_mem {cells : List Host.Cell} {a : Nat} {v : Byte} (h : cellsRead cells a = some v) : (a, v) ∈ cells := by
  induction cells with
  | nil => simp [cellsRead] at h
  | cons d rest ih =>
    obtain ⟨k, u⟩ := d
    simp only [cellsRead] at h
    split at h
    · next hk => subst hk; simp at h; subst h; simp
    · simp [ih h]

/-! ## Memory -/

@[simp] theorem Memory.write_fill (m : Memory) (a : Nat) (b : Byte) : (m.write a b).fill = m.fill := rfl

@[simp] theorem Memory.write16_fill (m : Memory) (a : Nat) (v : Word) : (m.write16 a v).fill = m.fill := rfl

/-- Every write keeps the canonical form. -/
theorem Memory.write_wf {m : Memory} (h : m.wf) (a : Nat) (b : Byte) : (m.write a b).wf := by
  obtain ⟨hp, hv⟩ := h
  unfold Memory.write
  by_cases hb : b = m.unlisted a
  · simp only [hb, if_true]
    exact ⟨pairwise_cellsErase hp a, fun c hc => hv c (mem_cellsErase hc)⟩
  · simp only [hb, if_false]
    refine ⟨pairwise_cellsInsert hp a b, fun c hc => ?_⟩
    rcases mem_cellsInsert hc with rfl | hc
    · exact hb
    · exact hv c hc

/-- Read after write: the byte written at that address, and every other byte as before. -/
theorem Memory.read_write {m : Memory} (h : m.wf) (a b : Nat) (v : Byte) :
    (m.write a v).read b = if b = a then v else m.read b := by
  unfold Memory.write Memory.read
  by_cases hv : v = m.unlisted a
  · simp only [hv, if_true]
    by_cases hb : b = a
    · subst hb; simp [cellsRead_erase_self h.1, Memory.unlisted]
    · simp [cellsRead_erase_ne _ hb, hb, Memory.unlisted]
  · simp only [hv, if_false, cellsRead_insert]
    by_cases hb : b = a
    · simp [hb]
    · simp [hb, Memory.unlisted]

theorem Memory.write16_wf {m : Memory} (h : m.wf) (a : Nat) (v : Word) : (m.write16 a v).wf :=
  Memory.write_wf (Memory.write_wf h _ _) _ _

/-- A 16-bit write changes two bytes: the high byte at the address, the low byte at the next (R55). -/
theorem Memory.read_write16 {m : Memory} (h : m.wf) (a b : Nat) (v : Word) :
    (m.write16 a v).read b = if b = a + 1 then lo8 v else if b = a then hi8 v else m.read b := by
  rw [Memory.write16, Memory.read_write (Memory.write_wf h _ _), Memory.read_write h]

/-- The two plane bytes of a word, joined again, are the word. -/
@[simp] theorem joinBytes_hi8_lo8 (v : Word) : joinBytes (hi8 v) (lo8 v) = v := by
  unfold joinBytes hi8 lo8
  ext i hi
  simp only [BitVec.getElem_append, BitVec.getElem_extractLsb']
  split
  · simp [← BitVec.getLsbD_eq_getElem]
  · next h => simp [← BitVec.getLsbD_eq_getElem, show 8 + (i - 8) = i by omega]

/-- A bit of a joined word: the low byte's below bit 8, the high byte's from bit 8. -/
theorem getLsbD_joinBytes (hi lo : Byte) (i : Nat) :
    (joinBytes hi lo).getLsbD i = if i < 8 then lo.getLsbD i else hi.getLsbD (i - 8) :=
  BitVec.getLsbD_append

@[simp] theorem hi8_joinBytes (hi lo : Byte) : hi8 (joinBytes hi lo) = hi := by
  unfold hi8
  ext i h
  simp [getLsbD_joinBytes, h, ← BitVec.getLsbD_eq_getElem]

@[simp] theorem lo8_joinBytes (hi lo : Byte) : lo8 (joinBytes hi lo) = lo := by
  unfold lo8
  ext i h
  simp [getLsbD_joinBytes, h, ← BitVec.getLsbD_eq_getElem]

/-- A 16-bit read after a 16-bit write at the same address gives the value written (R55). -/
theorem Memory.read16_write16 {m : Memory} (h : m.wf) (a : Nat) (v : Word) : (m.write16 a v).read16 a = v := by
  simp [Memory.read16, Memory.read_write16 h]

/-- A 16-bit read of two bytes that a 16-bit write does not touch gives what it gave before. -/
theorem Memory.read16_write16_ne {m : Memory} (h : m.wf) {a b : Nat} (v : Word) (hb : b + 1 < a ∨ a + 1 < b) :
    (m.write16 a v).read16 b = m.read16 b := by
  have h1 : b ≠ a + 1 := by omega
  have h2 : b ≠ a := by omega
  have h3 : b + 1 ≠ a := by omega
  simp [Memory.read16, Memory.read_write16 h, h1, h2, h3]

@[simp] theorem Memory.readBytes_length (m : Memory) (b n : Nat) : (m.readBytes b n).length = n := by
  simp [Memory.readBytes]

/-- Equal memories are equal data: two canonical memories with one fill that read alike everywhere are the same. -/
theorem Memory.ext_of_read {m n : Memory} (hm : m.wf) (hn : n.wf) (hf : m.fill = n.fill)
    (h : ∀ a, m.read a = n.read a) : m = n := by
  obtain ⟨fill, cells⟩ := m
  obtain ⟨fill', cells'⟩ := n
  simp only at hf
  subst hf
  congr 1
  have key : ∀ a, cellsRead cells a = cellsRead cells' a := by
    intro a
    have ha := h a
    simp only [Memory.read, Memory.unlisted] at ha
    rcases h1 : cellsRead cells a with _ | v <;> rcases h2 : cellsRead cells' a with _ | u
    · rfl
    · rw [h1, h2] at ha; exact absurd ha.symm (hn.2 _ (cellsRead_mem h2))
    · rw [h1, h2] at ha; exact absurd ha (hm.2 _ (cellsRead_mem h1))
    · rw [h1, h2] at ha; simpa using ha
  have hp := hm.1
  have hq := hn.1
  clear h hm hn
  simp only at hp hq
  induction cells generalizing cells' with
  | nil =>
    cases cells' with
    | nil => rfl
    | cons d r => obtain ⟨k, v⟩ := d; have := key k; simp [cellsRead] at this
  | cons c rest ih =>
    obtain ⟨k, v⟩ := c
    cases cells' with
    | nil => have := key k; simp [cellsRead] at this
    | cons d r =>
      obtain ⟨l, u⟩ := d
      rw [List.pairwise_cons] at hp hq
      have hkl : k = l := by
        rcases Nat.lt_trichotomy k l with hlt | heq | hgt
        · have := key k
          rw [cellsRead_none_of_lt (cells := (l, u) :: r)] at this
          · simp [cellsRead] at this
          · intro c hc
            rcases List.mem_cons.1 hc with rfl | hc
            · exact hlt
            · exact lt_trans hlt (hq.1 c hc)
        · exact heq
        · have := key l
          rw [cellsRead_none_of_lt (cells := (k, v) :: rest)] at this
          · simp [cellsRead] at this
          · intro c hc
            rcases List.mem_cons.1 hc with rfl | hc
            · exact hgt
            · exact lt_trans hgt (hp.1 c hc)
      subst hkl
      have hv : v = u := by have := key k; simpa [cellsRead] using this
      subst hv
      congr 1
      refine ih r (fun a => ?_) hp.2 hq.2
      have ha := key a
      simp only [cellsRead] at ha
      by_cases hk : k = a
      · subst hk; rw [cellsRead_none_of_lt hp.1, cellsRead_none_of_lt hq.1]
      · simpa [hk] using ha

end Sys2Proof.Machine
end

