-- ==== Sys2Proof/Laws/Ops.lean ====
section
/-! SUPPORT. For each shared operation, what it can do, once: pins and transfers, the framebuffer store, the read-modify-writes of a
run, the plane pass, INIT's wait. -/

namespace Sys2Proof.Machine

@[simp] theorem andThen_next (s : State) (k : State → Out) : andThen (.next s) k = k s := rfl
@[simp] theorem andThen_fault (f : Fault) (k : State → Out) : andThen (.fault f) k = .fault f := rfl
@[simp] theorem andThen_refused (r : Refusal) (k : State → Out) : andThen (.refused r) k = .refused r := rfl

/-- A sequence answers a next state exactly when both parts do. -/
theorem andThen_eq_next {o : Out} {k : State → Out} {t : State} :
    andThen o k = .next t ↔ ∃ u, o = .next u ∧ k u = .next t := by
  cases o <;> simp

theorem whenConfigured_of_ioen {s : State} (h : s.ioen = true) (k : State → Out) : whenConfigured s k = k s := by
  simp [whenConfigured, h]

theorem whenConfigured_of_not {s : State} (h : s.ioen = false) (k : State → Out) :
    whenConfigured s k = .refused .ioNotConfigured := by
  simp [whenConfigured, h]

/-! ## Pins and transfers -/

theorem txAll_nil (s : State) : txAll [] s = s := by simp [txAll]

/-- A transfer list is its first byte, then the rest (R155). -/
theorem txAll_cons (b : Byte) (bs : List Byte) (s : State) : txAll (b :: bs) s = txAll bs (tx b s) := by
  simp [txAll, tx]

theorem pin_trace (p : Pin) (v : Level) (s : State) : (pin p v s).trace = s.trace ++ [.pin p v] := by simp [pin]

/-- What the start of a command frame does to the state (R153). -/
theorem commandByte_eq (code : Byte) (s : State) :
    commandByte code s
      = { s with cs := false, dc := false, trace := s.trace ++ [.pin .cs false, .pin .dc false, .tx code] } := by
  simp [commandByte, tx, pin, State.emit, State.setLatch]

/-- What the start of a command-with-data frame does to the state (R154). -/
theorem openDataFrame_eq (code : Byte) (s : State) :
    openDataFrame code s
      = { s with cs := false, dc := true,
                 trace := s.trace ++ [.pin .cs false, .pin .dc false, .tx code, .pin .dc true] } := by
  simp [openDataFrame, commandByte_eq, pin, State.emit, State.setLatch]

/-- What data bytes and the release do to the state (R156). -/
theorem sendAndRelease_eq (bs : List Byte) (s : State) :
    sendAndRelease bs s = { s with cs := true, trace := s.trace ++ bs.map .tx ++ [.pin .cs true] } := by
  simp [sendAndRelease, txAll, pin, State.emit, State.setLatch]

/-- What the reset pulse does to the state (R186). -/
theorem resetPulse_eq (s : State) :
    resetPulse s
      = { s with rst := true,
                 trace := s.trace ++ [.pin .rst true, .delay 1, .pin .rst false, .delay 10, .pin .rst true] } := by
  simp [resetPulse, delay, pin, State.emit, State.setLatch]

theorem busyWait_eq (s : State) : busyWait s = { s with phase := if s.busy then .initWait else .idle } := rfl

/-! ## The framebuffer store -/

/-- A word exists exactly when its address is in range, in a state of the right shape (R59). -/
theorem fbPeek_isSome {s : State} (h : s.wf) (a : Nat) : (∃ v, fbPeek s a = some v) ↔ a < s.cfg.words := by
  obtain ⟨_, _, hr, _⟩ := h
  unfold fbPeek
  by_cases ha : a < s.cfg.words
  · rcases hs : s.cfg.store with _ | _
    · have := (hr hs).1
      simp [ha, List.getElem?_eq_getElem (show a < s.fb.length by omega)]
    · simp [ha]
  · simp [ha]

/-- What a read-modify-write leaves: only the store and the trace may differ, one word has its new value and every other word its
old one; resident, the external memory and the trace are as before; external, one `read16` and one `write16` are recorded, and no
byte but the two of the word changes. -/
structure WordUpdated (a : Nat) (f : Word → Word) (s t : State) : Prop where
  frame : SameButStore s t
  wf : t.wf
  words : ∀ b, fbPeek t b = if b = a then (fbPeek s b).map f else fbPeek s b
  resident : s.cfg.store = .resident → t.xm = s.xm ∧ t.trace = s.trace
  external : s.cfg.store = .external →
    t.xm = s.xm.write16 (wordBase s.cfg a) (f (s.xm.read16 (wordBase s.cfg a)))
      ∧ t.fb = s.fb
      ∧ t.trace = s.trace ++ [.xmR16 (wordBase s.cfg a) (s.xm.read16 (wordBase s.cfg a)),
          .xmW16 (wordBase s.cfg a) (f (s.xm.read16 (wordBase s.cfg a)))]

/-- A read-modify-write of a word that exists completes (R52 to R57, R63). -/
theorem updateWord_spec {s : State} (h : s.wf) {a : Nat} (ha : a < s.cfg.words) (f : Word → Word) :
    ∃ t, updateWord a f s = .next t ∧ WordUpdated a f s t := by
  have h0 := h
  obtain ⟨hc, hx, hr, he⟩ := h
  rcases hs : s.cfg.store with _ | _
  · have hlen := (hr hs).1
    have hlt : a < s.fb.length := by omega
    refine ⟨s.setFb (s.fb.set a (f s.fb[a])), ?_, ?_⟩
    · simp [updateWord, fbRead, fbWrite, ha, hs, hlt]
    · refine ⟨by simp [SameButStore, State.setFb], ?_, ?_, (fun _ => by simp), fun h' => by rw [hs] at h'; cases h'⟩
      · exact ⟨hc, hx, fun _ => ⟨by simpa using hlen, (hr hs).2⟩, fun h' => by simp [hs] at h'⟩
      · intro b
        by_cases hb : b = a
        · subst hb; simp [fbPeek, ha, hs, hlt]
        · simp [fbPeek, hs, hb, Ne.symm hb]
  · refine ⟨xmWrite16 (wordBase s.cfg a) (f (s.xm.read16 (wordBase s.cfg a))) (xmRead16 (wordBase s.cfg a) s).2, ?_, ?_⟩
    · simp [updateWord, fbRead, fbWrite, ha, hs, xmRead16]
    · refine ⟨?_, ?_, ?_, (fun h' => by rw [hs] at h'; cases h'), fun _ => ⟨?_, ?_, ?_⟩⟩
      · simp [SameButStore, xmWrite16, xmRead16, State.emit, State.setXm]
      · refine ⟨hc, ?_, fun h' => by simp [hs, xmWrite16, xmRead16] at h', fun _ => ?_⟩
        · simpa [xmWrite16, xmRead16] using Memory.write16_wf hx _ _
        · simpa [xmWrite16, xmRead16] using he hs
      · intro b
        simp only [fbPeek, xmWrite16, xmRead16, State.emit_cfg, State.setXm_cfg, State.emit_xm, State.setXm_xm, hs]
        by_cases hb : b = a
        · subst hb; simp [ha, Memory.read16_write16 hx]
        · have : wordBase s.cfg b + 1 < wordBase s.cfg a ∨ wordBase s.cfg a + 1 < wordBase s.cfg b := by
            unfold wordBase; omega
          simp [hb, Memory.read16_write16_ne hx _ this]
      · simp [xmWrite16, xmRead16]
      · simp [xmWrite16, xmRead16]
      · simp [xmWrite16, xmRead16]

/-- The framebuffer of an external machine is read from `XM`. -/
theorem fbPeek_external {s : State} (hs : s.cfg.store = .external) {a : Nat} (ha : a < s.cfg.words) :
    fbPeek s a = some (s.xm.read16 (wordBase s.cfg a)) := by
  simp [fbPeek, hs, ha]

@[simp] theorem wordAfter_nil (c : Colour) (a : Nat) (v : Word) : wordAfter c [] a v = v := rfl

/-- The first read-modify-write of a list, then the rest. -/
theorem wordAfter_cons (c : Colour) (x : Access) (rest : List Access) (a : Nat) (v : Word) :
    wordAfter c (x :: rest) a v = wordAfter c rest a (if x.addr = a then applyLanes c x.lanes v else v) := rfl

/-- What a list of read-modify-writes leaves. -/
structure AccessesApplied (c : Colour) (acc : List Access) (s t : State) : Prop where
  frame : SameButStore s t
  wf : t.wf
  words : ∀ a, fbPeek t a = (fbPeek s a).map (wordAfter c acc a)
  resident : s.cfg.store = .resident → t.xm = s.xm ∧ t.trace = s.trace
  external : s.cfg.store = .external →
    t.fb = s.fb ∧ t.xm.fill = s.xm.fill
      ∧ (∀ b, storesByte s.cfg acc b = false → t.xm.read b = s.xm.read b)
      ∧ t.trace = s.trace ++ accessEvents s.cfg c acc (fun a => s.xm.read16 (wordBase s.cfg a))

theorem accessEvents_congr (cfg : Config) (c : Colour) (acc : List Access) {m m' : Nat → Word}
    (h : ∀ x ∈ acc, m x.addr = m' x.addr) : accessEvents cfg c acc m = accessEvents cfg c acc m' := by
  induction acc generalizing m m' with
  | nil => rfl
  | cons x rest ih =>
    simp only [accessEvents, h x (by simp)]
    congr 2
    refine ih fun y hy => ?_
    simp only [h y (by simp [hy])]

/-- A run whose words all exist completes; this lemma says everything its read-modify-writes do (R125, R129, R130, R134). -/
theorem applyAccesses_spec {c : Colour} {acc : List Access} {s : State} (h : s.wf)
    (ha : ∀ x ∈ acc, x.addr < s.cfg.words) :
    ∃ t, applyAccesses c acc s = .next t ∧ AccessesApplied c acc s t := by
  induction acc generalizing s with
  | nil =>
    refine ⟨s, rfl, ⟨rfl, h, fun a => ?_, fun _ => ⟨rfl, rfl⟩, fun _ => ⟨rfl, rfl, fun _ _ => rfl, ?_⟩⟩⟩
    · simp [funext (wordAfter_nil c a)]
    · simp [accessEvents]
  | cons x rest ih =>
    obtain ⟨u, hu, hw⟩ := updateWord_spec h (ha x (by simp)) (applyLanes c x.lanes)
    have hcfg : u.cfg = s.cfg := by rw [hw.frame]
    obtain ⟨t, ht, hA⟩ := ih hw.wf (fun y hy => by rw [hcfg]; exact ha y (by simp [hy]))
    refine ⟨t, by simp [applyAccesses, hu, ht], ⟨?_, hA.wf, fun a => ?_, fun hs => ?_, fun hs => ?_⟩⟩
    · have h1 := hA.frame
      rw [hw.frame] at h1
      exact h1
    · rw [hA.words, hw.words]
      by_cases hxa : a = x.addr
      · simp [hxa, Function.comp_def, funext (wordAfter_cons c x rest x.addr)]
      · simp [hxa, Ne.symm hxa, funext (wordAfter_cons c x rest a)]
    · have h1 := hA.resident (by rw [hcfg]; exact hs)
      have h2 := hw.resident hs
      exact ⟨h1.1.trans h2.1, h1.2.trans h2.2⟩
    · obtain ⟨f1, f2, f3, f4⟩ := hA.external (by rw [hcfg]; exact hs)
      obtain ⟨g1, g2, g3⟩ := hw.external hs
      rw [hcfg] at f3 f4
      have hx := h.2.1
      refine ⟨f1.trans g2, by rw [f2, g1]; rfl, fun b hb => ?_, ?_⟩
      · simp only [storesByte, List.any_cons, Bool.or_eq_false_iff, beq_eq_false_iff_ne] at hb
        rw [f3 b (by simpa [storesByte] using hb.2), g1, Memory.read_write16 hx]
        simp [hb.1.1, hb.1.2]
      · rw [f4, g3]
        simp only [accessEvents, List.append_assoc, List.cons_append, List.nil_append]
        congr 3
        refine accessEvents_congr _ _ _ fun y hy => ?_
        rw [g1]
        by_cases hyx : y.addr = x.addr
        · simp [hyx, Memory.read16_write16 hx]
        · have : wordBase s.cfg y.addr + 1 < wordBase s.cfg x.addr ∨ wordBase s.cfg x.addr + 1 < wordBase s.cfg y.addr := by
            unfold wordBase; omega
          simp [hyx, Memory.read16_write16_ne hx _ this]

/-- The events of a run are pairs of a read and a write, at the byte addresses of its accesses, in order (R134). -/
theorem accessEvents_pairs (cfg : Config) (c : Colour) (acc : List Access) (m : Nat → Word) :
    ∃ pairs, accessEvents cfg c acc m = accessPairs pairs ∧ pairs.map (·.1) = acc.map fun a => wordBase cfg a.addr := by
  induction acc generalizing m with
  | nil => exact ⟨[], rfl, rfl⟩
  | cons x r ih =>
    obtain ⟨ps, h1, h2⟩ := ih (fun a => if a = x.addr then applyLanes c x.lanes (m a) else m a)
    exact ⟨(wordBase cfg x.addr, m x.addr, applyLanes c x.lanes (m x.addr)) :: ps,
      by simp [accessEvents, accessPairs, h1], by simp [h2]⟩

end Sys2Proof.Machine
end

