-- ==== Sys2Proof/Laws/Flush.lean ====
section
/-! SUPPORT. The plane pass of a flush. -/

namespace Sys2Proof.Machine

/-- What one chunk does to the state (R174). -/
theorem streamChunk_eq (p : Plane) (off n : Nat) (s : State) :
    streamChunk p off n s =
      { s with
        pagebuf := s.xm.readBytes (s.cfg.extBase + off) n ++ s.pagebuf.drop n
        trace := s.trace ++ (.xmR (s.cfg.extBase + off) n (s.xm.readBytes (s.cfg.extBase + off) n)
          :: (deinterleave p (s.xm.readBytes (s.cfg.extBase + off) n)).map .tx) } := by
  simp [streamChunk, xmRead, txAll, State.emit, State.setPagebuf]

/-- The events of the chunk loop of R174. -/
def pageEvents (p : Plane) (cfg : Config) (m : Memory) : Nat → Nat → List Event
  | 0, _ => []
  | fuel + 1, off =>
    if off < 2 * cfg.words then
      .xmR (cfg.extBase + off) (min cfg.pageBytes (2 * cfg.words - off))
          (m.readBytes (cfg.extBase + off) (min cfg.pageBytes (2 * cfg.words - off)))
        :: ((deinterleave p (m.readBytes (cfg.extBase + off) (min cfg.pageBytes (2 * cfg.words - off)))).map Event.tx
        ++ pageEvents p cfg m fuel (off + min cfg.pageBytes (2 * cfg.words - off)))
    else []

/-- The content of PAGEBUF after the chunk loop of R174. -/
def pagesBuffer (cfg : Config) (m : Memory) : Nat → Nat → List Byte → List Byte
  | 0, _, buf => buf
  | fuel + 1, off, buf =>
    if off < 2 * cfg.words then
      pagesBuffer cfg m fuel (off + min cfg.pageBytes (2 * cfg.words - off))
        (m.readBytes (cfg.extBase + off) (min cfg.pageBytes (2 * cfg.words - off))
          ++ buf.drop (min cfg.pageBytes (2 * cfg.words - off)))
    else buf

/-- The chunk loop changes PAGEBUF and appends to the trace, and nothing else. -/
theorem streamPages_eq (p : Plane) (fuel off : Nat) (s : State) :
    streamPages p fuel off s =
      { s with pagebuf := pagesBuffer s.cfg s.xm fuel off s.pagebuf
               trace := s.trace ++ pageEvents p s.cfg s.xm fuel off } := by
  induction fuel generalizing off s with
  | zero => simp [streamPages, pagesBuffer, pageEvents]
  | succ fuel ih =>
    simp only [streamPages, pagesBuffer, pageEvents]
    split
    · rw [ih, streamChunk_eq]; simp
    · simp

/-- PAGEBUF keeps its length. -/
theorem pagesBuffer_length (cfg : Config) (m : Memory) (fuel off : Nat) (buf : List Byte)
    (h : buf.length = cfg.pageBytes) : (pagesBuffer cfg m fuel off buf).length = cfg.pageBytes := by
  induction fuel generalizing off buf with
  | zero => exact h
  | succ fuel ih =>
    simp only [pagesBuffer]
    split
    · exact ih _ _ (by simp [h])
    · exact h

/-- The data events of a plane pass in a well-formed state (R171, R174). -/
def planeData (p : Plane) (s : State) : List Event :=
  match s.cfg.store with
  | .resident => (s.fb.map (planeByte p)).map .tx
  | .external => pageEvents p s.cfg s.xm (2 * s.cfg.words) 0

/-- PAGEBUF after a plane pass. -/
def planeBuffer (s : State) : List Byte :=
  match s.cfg.store with
  | .resident => s.pagebuf
  | .external => pagesBuffer s.cfg s.xm (2 * s.cfg.words) 0 s.pagebuf

/-- The events of a plane pass: command byte, data mode, data, release (R171, R174). -/
def planeEvents (cmd : Byte) (p : Plane) (s : State) : List Event :=
  [.pin .cs false, .pin .dc false, .tx cmd, .pin .dc true] ++ planeData p s ++ [.pin .cs true]

/-- What a plane pass does to a well-formed state: it completes; CS and DC end at 1, PAGEBUF and the trace move, nothing else does
(R170, R171, R174). -/
theorem planePass_eq {s : State} (h : s.wf) (cmd : Byte) (p : Plane) :
    planePass cmd p s = .next
      { s with cs := true, dc := true, pagebuf := planeBuffer s, trace := s.trace ++ planeEvents cmd p s } := by
  obtain ⟨hc, -, hr, he⟩ := h
  rcases hs : s.cfg.store with _ | _
  · have hlen := (hr hs).1
    simp [planePass, streamPlane, openDataFrame_eq, hs, ← hlen, planeBuffer, planeEvents, planeData, txAll, pin, State.emit,
      State.setLatch]
  · have hpage : s.cfg.pageOk = true := by
      simp only [Config.wf, hs, Bool.and_eq_true] at hc
      exact hc.2
    simp [planePass, streamPlane, openDataFrame_eq, hs, hpage, planeBuffer, planeEvents, planeData, streamPages_eq, pin,
      State.emit, State.setLatch]

theorem planeBuffer_length {s : State} (h : s.wf) (hs : s.cfg.store = .external) :
    (planeBuffer s).length = s.cfg.pageBytes := by
  simp only [planeBuffer, hs]
  exact pagesBuffer_length _ _ _ _ _ (h.2.2.2 hs).2

/-- The state a plane pass leaves has its shape again. -/
theorem planePass_wf {s : State} (h : s.wf) (es : List Event) :
    State.wf { s with cs := true, dc := true, pagebuf := planeBuffer s, trace := s.trace ++ es } := by
  have h' := h
  obtain ⟨hc, hx, hr, he⟩ := h
  refine ⟨hc, hx, fun hs => ?_, fun hs => ?_⟩
  · simp only at hs
    simpa [planeBuffer, hs] using hr hs
  · exact ⟨(he hs).1, planeBuffer_length h' hs⟩

/-! ## The chunks of an external flush (R174) -/

/-- A read of two bytes more begins with those two. -/
theorem Memory.readBytes_succ_succ (m : Memory) (b n : Nat) :
    m.readBytes b (n + 2) = m.read b :: m.read (b + 1) :: m.readBytes (b + 2) n := by
  simp only [Memory.readBytes, List.range_succ_eq_map, List.map_cons, List.map_map, Function.comp_def, Nat.add_zero]
  congr 2
  apply List.map_congr_left
  intro t _
  congr 1; omega

/-- The plane's bytes of a chunk of whole words (R174). -/
theorem deinterleave_readBytes (p : Plane) (m : Memory) (b n : Nat) :
    deinterleave p (m.readBytes b (2 * n)) = (List.range n).map fun j => m.read (b + (2 * j + p.byteOffset)) := by
  induction n generalizing b with
  | zero => rfl
  | succ n ih =>
    rw [show 2 * (n + 1) = 2 * n + 2 by omega, Memory.readBytes_succ_succ, List.range_succ_eq_map, List.map_cons, List.map_map]
    have hr : deinterleave p (m.read b :: m.read (b + 1) :: m.readBytes (b + 2) (2 * n))
        = (match p with | .bw => m.read (b + 1) | .hl => m.read b) :: deinterleave p (m.readBytes (b + 2) (2 * n)) := by
      cases p <;> rfl
    rw [hr, ih]
    congr 1
    · cases p <;> rfl
    · apply List.map_congr_left
      intro j _
      simp only [Function.comp_def]
      congr 1
      omega

/-- Chunk `k` is read exactly when the loop of R174 has not ended before it. -/
theorem lt_chunkCount_iff {cfg : Config} (hp : 2 ≤ cfg.pageBytes) (k : Nat) :
    k < chunkCount cfg ↔ k * cfg.pageBytes < 2 * cfg.words := by
  unfold chunkCount
  rw [Nat.lt_iff_add_one_le, Nat.le_div_iff_mul_le (by omega), Nat.add_mul]
  omega

/-- Every chunk is a whole number of words. -/
theorem chunkLength_even {cfg : Config} (hp : cfg.pageOk = true) (k : Nat) : 2 * (chunkLength cfg k / 2) = chunkLength cfg k := by
  simp only [Config.pageOk, Bool.and_eq_true, decide_eq_true_eq] at hp
  obtain ⟨c, hc⟩ : ∃ c, cfg.pageBytes = 2 * c := ⟨cfg.pageBytes / 2, by omega⟩
  have : k * cfg.pageBytes = 2 * (k * c) := by rw [hc]; ring
  unfold chunkLength
  rw [this]
  omega

/-- The chunk loop of R174 emits its chunks' events, in order. -/
theorem pageEvents_eq_chunks (p : Plane) {cfg : Config} (hp : cfg.pageOk = true) (m : Memory) (fuel k : Nat)
    (hf : 2 * cfg.words ≤ fuel + k * cfg.pageBytes) :
    pageEvents p cfg m fuel (k * cfg.pageBytes)
      = (List.range' k (chunkCount cfg - k)).flatMap (chunkEvents p cfg m) := by
  have h2 : 2 ≤ cfg.pageBytes := by
    simp only [Config.pageOk, Bool.and_eq_true, decide_eq_true_eq] at hp; exact hp.1
  induction fuel generalizing k with
  | zero =>
    have : ¬ k < chunkCount cfg := by rw [lt_chunkCount_iff h2]; omega
    simp [pageEvents, show chunkCount cfg - k = 0 by omega]
  | succ fuel ih =>
    have hk := lt_chunkCount_iff h2 k
    simp only [pageEvents]
    split
    · next hlt =>
      obtain ⟨d, hd⟩ : ∃ d, chunkCount cfg - k = d + 1 := ⟨chunkCount cfg - k - 1, by omega⟩
      rw [hd, List.range'_succ, List.flatMap_cons]
      have hc : chunkEvents p cfg m k
          = .xmR (cfg.extBase + k * cfg.pageBytes) (min cfg.pageBytes (2 * cfg.words - k * cfg.pageBytes))
              (m.readBytes (cfg.extBase + k * cfg.pageBytes) (min cfg.pageBytes (2 * cfg.words - k * cfg.pageBytes)))
            :: (deinterleave p (m.readBytes (cfg.extBase + k * cfg.pageBytes)
                (min cfg.pageBytes (2 * cfg.words - k * cfg.pageBytes)))).map .tx := by
        have he := chunkLength_even hp k
        have hd := deinterleave_readBytes p m (chunkBase cfg k) (chunkLength cfg k / 2)
        rw [he] at hd
        unfold chunkEvents
        simp only [chunkBase, chunkLength] at hd ⊢
        rw [hd, List.map_map]
        rfl
      rw [hc, List.cons_append]
      congr 2
      by_cases hlast : (k + 1) * cfg.pageBytes ≤ 2 * cfg.words
      · have hadd : k * cfg.pageBytes + min cfg.pageBytes (2 * cfg.words - k * cfg.pageBytes) = (k + 1) * cfg.pageBytes := by
          rw [Nat.add_mul] at hlast ⊢; omega
        rw [hadd, ih (k + 1) (by rw [Nat.add_mul]; omega), show chunkCount cfg - (k + 1) = d by omega]
      · have hn : ¬ (k + 1) < chunkCount cfg := by rw [lt_chunkCount_iff h2]; omega
        have hz : d = 0 := by omega
        have hadd : k * cfg.pageBytes + min cfg.pageBytes (2 * cfg.words - k * cfg.pageBytes) = 2 * cfg.words := by
          rw [Nat.add_mul] at hlast; omega
        rw [hadd, hz]
        cases fuel <;> simp [pageEvents]
    · next hlt =>
      rw [show chunkCount cfg - k = 0 by omega]; rfl

/-- A pass of an external flush emits the events of R174. -/
theorem planeEvents_external {s : State} (h : s.wf) (hs : s.cfg.store = .external) (cmd : Byte) (p : Plane) :
    planeEvents cmd p s = passEvents cmd p s.cfg s.xm := by
  have hp : s.cfg.pageOk = true := by
    have hc := h.1
    simp only [Config.wf, hs, Bool.and_eq_true] at hc
    exact hc.2
  have := pageEvents_eq_chunks p hp s.xm (2 * s.cfg.words) 0 (by omega)
  rw [Nat.zero_mul, Nat.sub_zero, ← List.range_eq_range'] at this
  simp only [planeEvents, planeData, hs, this, passEvents]

/-- A byte of PAGEBUF after a chunk of `n` bytes was read into it. -/
theorem chunk_buffer_getElem? (m : Memory) (b n : Nat) (buf : List Byte) (j : Nat) :
    (m.readBytes b n ++ buf.drop n)[j]? = if j < n then some (m.read (b + j)) else buf[j]? := by
  split
  · next h => rw [List.getElem?_append_left (by simpa using h)]; simp [Memory.readBytes, h]
  · next h =>
    rw [List.getElem?_append_right (by simp; omega), List.getElem?_drop, Memory.readBytes_length]
    congr 1; omega

/-- What PAGEBUF holds after the chunk loop of R174: the last chunk in its first bytes, and behind them the chunk before it, or what
there was when the loop read one chunk only. -/
theorem pagesBuffer_getElem? {cfg : Config} (hp : 2 ≤ cfg.pageBytes) (m : Memory) (fuel k : Nat) (buf : List Byte)
    (hf : 2 * cfg.words ≤ fuel + k * cfg.pageBytes) (hk : k < chunkCount cfg) (j : Nat) (hj : j < cfg.pageBytes) :
    (pagesBuffer cfg m fuel (k * cfg.pageBytes) buf)[j]? =
      if j < chunkLength cfg (chunkCount cfg - 1) then some (m.read (chunkBase cfg (chunkCount cfg - 1) + j))
      else if chunkCount cfg = k + 1 then buf[j]? else some (m.read (chunkBase cfg (chunkCount cfg - 2) + j)) := by
  induction fuel generalizing k buf with
  | zero => rw [lt_chunkCount_iff hp] at hk; omega
  | succ fuel ih =>
    have hlt := (lt_chunkCount_iff hp k).1 hk
    simp only [pagesBuffer, hlt, if_true]
    by_cases hlast : k + 1 < chunkCount cfg
    · have h1 := (lt_chunkCount_iff hp (k + 1)).1 hlast
      have hmin : min cfg.pageBytes (2 * cfg.words - k * cfg.pageBytes) = cfg.pageBytes := by
        rw [Nat.add_mul] at h1; omega
      rw [hmin, show k * cfg.pageBytes + cfg.pageBytes = (k + 1) * cfg.pageBytes by rw [Nat.add_mul]; omega,
        ih (k + 1) _ (by rw [Nat.add_mul]; omega) hlast, chunk_buffer_getElem?]
      simp only [hj, if_true, show chunkCount cfg ≠ k + 1 by omega, if_false]
      by_cases h2 : chunkCount cfg = k + 1 + 1
      · simp only [h2, if_true]; rfl
      · simp only [h2, if_false]
    · have hc : chunkCount cfg = k + 1 := by omega
      have hend : ¬ k * cfg.pageBytes + min cfg.pageBytes (2 * cfg.words - k * cfg.pageBytes) < 2 * cfg.words := by
        have := (lt_chunkCount_iff hp (k + 1)).not.1 hlast
        rw [Nat.add_mul] at this
        omega
      have hdone : ∀ b, pagesBuffer cfg m fuel (k * cfg.pageBytes + min cfg.pageBytes (2 * cfg.words - k * cfg.pageBytes)) b = b := by
        intro b; cases fuel <;> simp [pagesBuffer, hend]
      rw [hdone, chunk_buffer_getElem?, hc]
      simp [chunkLength, chunkBase]

/-- The transfers of the first chunks of a pass are those of the plane's bytes of the first words (R174, R175). -/
theorem onBus_chunks (p : Plane) {cfg : Config} (hp : cfg.pageOk = true) (m : Memory) (n : Nat) (hn : n ≤ chunkCount cfg) :
    ((List.range n).flatMap (chunkEvents p cfg m)).filter Event.onBus
      = (List.range (min (n * cfg.pageBytes) (2 * cfg.words) / 2)).map fun a =>
          .tx (m.read (cfg.extBase + (2 * a + p.byteOffset))) := by
  have h2 : 2 ≤ cfg.pageBytes := by
    simp only [Config.pageOk, Bool.and_eq_true, decide_eq_true_eq] at hp; exact hp.1
  obtain ⟨c, hc⟩ : ∃ c, cfg.pageBytes = 2 * c := by
    simp only [Config.pageOk, Bool.and_eq_true, decide_eq_true_eq] at hp
    exact ⟨cfg.pageBytes / 2, by omega⟩
  induction n with
  | zero => simp
  | succ n ih =>
    have hlt := (lt_chunkCount_iff h2 n).1 (by omega)
    rw [List.range_succ, List.flatMap_append, List.filter_append, ih (by omega)]
    have hsplit : min ((n + 1) * cfg.pageBytes) (2 * cfg.words) / 2
        = min (n * cfg.pageBytes) (2 * cfg.words) / 2 + chunkLength cfg n / 2 := by
      have e : n * cfg.pageBytes = 2 * (n * c) := by rw [hc]; ring
      unfold chunkLength
      rw [Nat.add_mul, e, hc]
      rw [e] at hlt
      omega
    rw [hsplit, List.range_add, List.map_append, List.map_map]
    congr 1
    have hmin : min (n * cfg.pageBytes) (2 * cfg.words) / 2 = n * c := by
      have e : n * cfg.pageBytes = 2 * (n * c) := by rw [hc]; ring
      rw [e] at hlt ⊢
      omega
    simp only [List.flatMap_cons, List.flatMap_nil, List.append_nil, chunkEvents, List.filter_cons, Event.onBus, hmin]
    rw [List.filter_eq_self.2 (by simp [Event.onBus])]
    apply List.map_congr_left
    intro j _
    simp only [Function.comp_def, chunkBase]
    congr 2
    rw [hc]; ring

/-- Each chunk is read once. -/
theorem chunk_reads (p : Plane) (cfg : Config) (m : Memory) (n : Nat) :
    (((List.range n).flatMap (chunkEvents p cfg m)).filter Event.isChunkRead).length = n := by
  induction n with
  | zero => rfl
  | succ n ih =>
    rw [List.range_succ, List.flatMap_append, List.filter_append, List.length_append, ih]
    simp only [List.flatMap_cons, List.flatMap_nil, List.append_nil, chunkEvents, List.filter_cons, Event.isChunkRead,
      if_true, List.length_cons]
    rw [List.filter_eq_nil_iff.2 (by simp [Event.isChunkRead])]
    rfl

/-! ## The flush -/

/-- What a flush does to a well-formed state with IOEN = 1, whole (R170, R171, R174). -/
theorem execFlush_eq {s : State} (h : s.wf) (hi : s.ioen = true) :
    execFlush s = .next { s with
      cs := true, dc := true
      pagebuf := match s.cfg.cmdHl with
        | none => planeBuffer s
        | some _ => planeBuffer { s with pagebuf := planeBuffer s }
      trace := s.trace ++ (planeEvents s.cfg.cmdBw .bw s
        ++ match s.cfg.cmdHl with
          | none => []
          | some cmd => planeEvents cmd .hl s) } := by
  simp only [execFlush]
  rw [whenConfigured_of_ioen hi, planePass_eq h, andThen_next]
  cases hcm : s.cfg.cmdHl with
  | none => simp
  | some cmd =>
    simp only
    rw [planePass_eq (planePass_wf h _)]
    simp only [List.append_assoc]
    rfl

end Sys2Proof.Machine
end

