-- ==== Sys2Proof/Laws/Geometry.lean ====
section
/-! SUPPORT. The geometry engine: the clamp, the range of the addresses (20_memory.md R59), and what a draw does. -/

namespace Sys2Proof.Machine

/-- After the clamp the run starts at 0 or above and ends at the bound or below (R123, R127: "After this step"). -/
theorem clampSpan_range (bound start len : Int) :
    0 ≤ (clampSpan bound start len).1
      ∧ (clampSpan bound start len).1 + (clampSpan bound start len).2 ≤ bound := by
  unfold clampSpan
  simp only
  split_ifs <;> omega

/-- The clamp never lengthens a run (R123). -/
theorem clampSpan_len_le (bound start len : Int) : (clampSpan bound start len).2 ≤ len := by
  unfold clampSpan
  simp only
  split_ifs <;> omega

theorem Config.stride_mul (cfg : Config) : 8 * cfg.stride ≤ cfg.height := by
  unfold Config.stride; omega

/-- A word address inside the panel is inside the framebuffer (R59). -/
theorem wordAddr_lt {cfg : Config} {x y : Nat} (hx : x < cfg.width) (hy : y < cfg.height) :
    wordAddr cfg x y < cfg.words := by
  unfold wordAddr Config.words Config.stride
  have h1 : x * (cfg.height / 8) ≤ (cfg.width - 1) * ((cfg.height + 7) / 8) :=
    Nat.mul_le_mul (by omega) (by omega)
  have h2 : y / 8 < (cfg.height + 7) / 8 := by omega
  have h3 : (cfg.width - 1) * ((cfg.height + 7) / 8) + (cfg.height + 7) / 8 = (cfg.height + 7) / 8 * cfg.width := by
    obtain ⟨w, hw⟩ : ∃ w, cfg.width = w + 1 := ⟨cfg.width - 1, by omega⟩
    rw [hw]; simp; ring
  omega

theorem horizontalAccesses_lt {cfg : Config} {x y w : Nat} (hx : x + w ≤ cfg.width) (hy : y < cfg.height) :
    ∀ a ∈ horizontalAccesses cfg x y w, a.addr < cfg.words := by
  intro a ha
  simp only [horizontalAccesses, List.mem_map, List.mem_range] at ha
  obtain ⟨j, hj, rfl⟩ := ha
  have := wordAddr_lt (cfg := cfg) (x := x + j) (y := y) (by omega) hy
  simp only [wordAddr, Nat.add_mul] at this ⊢
  omega

theorem verticalAccesses_lt {cfg : Config} {x y h : Nat} (hx : x < cfg.width) (hy : y + h ≤ cfg.height) :
    ∀ a ∈ verticalAccesses cfg x y h, a.addr < cfg.words := by
  intro a ha
  simp only [verticalAccesses, List.mem_append, List.mem_map, List.mem_range] at ha
  rcases ha with ⟨b, hb, rfl⟩ | ⟨i, hi, rfl⟩
  · have := wordAddr_lt (cfg := cfg) (x := x) (y := 8 * (y / 8) + 8 * b) hx (by omega)
    simp only [wordAddr] at this ⊢
    omega
  · have := wordAddr_lt (cfg := cfg) (x := x) (y := 8 * (y / 8) + 8 * (h / 8)) hx (by omega)
    simp only [wordAddr] at this ⊢
    omega

/-- Every word a run touches exists: "addressing formula ... must always land inside this range after clamping" (R59). -/
theorem Run.accesses_lt (cfg : Config) (r : Run) : ∀ a ∈ r.accesses cfg, a.addr < cfg.words := by
  obtain ⟨axis, x, y, len⟩ := r
  cases axis with
  | horizontal =>
    simp only [Run.accesses, hrunAccesses]
    split
    · simp
    · split
      · simp
      · next hy hw =>
        have := clampSpan_range cfg.width x len
        exact horizontalAccesses_lt (by omega) (by omega)
  | vertical =>
    simp only [Run.accesses, vrunAccesses]
    split
    · simp
    · split
      · simp
      · next hx hh =>
        have := clampSpan_range cfg.height y len
        exact verticalAccesses_lt (by omega) (by omega)

/-- What a draw leaves, for any run: the read-modify-writes of its accesses (none when the colour is dropped, R111). -/
theorem draw_spec {s : State} (h : s.wf) (c : Colour) (r : Run) :
    ∃ t, (if highlightDropped s.cfg c then Host.Outcome.next s else applyAccesses c (r.accesses s.cfg) s) = .next t
      ∧ AccessesApplied c (if highlightDropped s.cfg c then [] else r.accesses s.cfg) s t := by
  split
  · exact applyAccesses_spec (acc := []) h (by simp)
  · exact applyAccesses_spec h (r.accesses_lt s.cfg)

end Sys2Proof.Machine
end

