-- ==== Sys2Proof/Laws/PerInstr.lean ====
section
/-! SUPPORT. The family EncodesItsFields: an operation's command word carries the opcode of its row, leaves every field it does not
use zero (30_encoding.md R88, R90), and its payload has the length the decoder expects (R91). One lemma per constructor. -/

namespace Sys2Proof.Laws.EncodesItsFields

/-- What the family states of an instruction. -/
def Statement (i : Instr) : Prop :=
  i.wf = true →
    i.fields.op = i.opcode.bits ∧ i.fields.unusedZero i.opcode.uses = true
      ∧ hasLength i.payload (i.opcode.payloadCount i.fields) = true

theorem setrot (r : Rotation) : Statement (.setrot r) := fun _ => ⟨rfl, rfl, rfl⟩

theorem hline (x y w : Int) (c : Colour) : Statement (.hline x y w c) := fun _ => ⟨rfl, rfl, rfl⟩

theorem vline (x y h : Int) (c : Colour) : Statement (.vline x y h c) := fun _ => ⟨rfl, rfl, rfl⟩

theorem dcmode (m : Level) : Statement (.dcmode m) := fun _ => ⟨rfl, rfl, rfl⟩

theorem sendcmd (code : Byte) (ar : Bool) : Statement (.sendcmd code ar) := fun _ => ⟨rfl, rfl, rfl⟩

theorem sendcmddata (code : Byte) (n : Nat) (bytes : List Byte) : Statement (.sendcmddata code n bytes) := by
  intro h
  simp only [Instr.wf, Bool.and_eq_true, payloadIs, decide_eq_true_eq] at h
  refine ⟨rfl, rfl, (hasLength_iff _ _).2 ?_⟩
  simp only [Instr.payload, Instr.opcode, Opcode.payloadCount, Instr.fields, toNat_count h.1, h.2]

theorem senddata (n : Nat) (bytes : List Byte) : Statement (.senddata n bytes) := by
  intro h
  simp only [Instr.wf, Bool.and_eq_true, payloadIs, decide_eq_true_eq] at h
  refine ⟨rfl, rfl, (hasLength_iff _ _).2 ?_⟩
  simp only [Instr.payload, Instr.opcode, Opcode.payloadCount, Instr.fields, toNat_count h.1, h.2]

theorem flush : Statement .flush := fun _ => ⟨rfl, rfl, rfl⟩

theorem init (rp : Bool) : Statement (.init rp) := fun _ => ⟨rfl, rfl, rfl⟩

end Sys2Proof.Laws.EncodesItsFields
end

