-- ==== Sys2Proof/Laws/Step.lean ====
section
/-! SUPPORT. What a step can do, once: the cases of a step, what each shared operation leaves unchanged in any state in which it
completes, and that every meaning keeps the shape of the state. -/

namespace Sys2Proof.Machine

theorem highlightDropped_iff (cfg : Config) (c : Colour) :
    highlightDropped cfg c = true ↔ c = .highlight ∧ cfg.hasHl = false := by
  cases c <;> simp [highlightDropped]

/-- The cases of a step: it is refused; or no command is taken, and only the panel moves or INIT's wait is sampled; or the next
command is run by `exec`. -/
theorem step_cases (s : State) :
    (∃ r, step s = .refused r)
      ∨ (∃ t, step s = .next t ∧ (t = panelMove s ∨ t = busyWait (panelMove s) ∧ s.phase = .initWait))
      ∨ ∃ i cmd rest, s.commands = cmd :: rest ∧ decode cmd = .ok i ∧ s.phase = .idle ∧ s.cfg.wf = true
          ∧ step s = exec i ((panelMove s).setCommands rest) := by
  unfold step fetch
  by_cases hc : s.cfg.wf = true
  · simp only [hc, if_true, accept, panelMove_phase, panelMove_commands]
    cases hp : s.phase with
    | initWait => simp
    | idle =>
      cases hq : s.commands with
      | nil => simp
      | cons cmd rest =>
        cases hd : decode cmd with
        | error e => exact .inl ⟨refusalOf e, by simp [hd]⟩
        | ok i => exact .inr (.inr ⟨i, cmd, rest, rfl, hd, rfl, trivial, by simp [hd]⟩)
  · simp [hc]

/-- The panel's move keeps the shape of the state. -/
theorem panelMove_wf {s : State} (h : s.wf) : (panelMove s).wf := by
  rw [panelMove_eq]; exact h

/-! ## What completes leaves unchanged, in any state -/

/-- A read-modify-write that completes changes the store and the trace only, and uses no pin (R121, R126). -/
theorem updateWord_frame {a : Nat} {f : Word → Word} {s t : State} (h : updateWord a f s = .next t) :
    SameButStore s t ∧ ∃ es, t.trace = s.trace ++ es ∧ ∀ e ∈ es, e.usesPins = false := by
  cases hs : s.cfg.store with
  | resident =>
    simp only [updateWord, fbRead, hs] at h
    by_cases ha : a < s.cfg.words
    · simp only [ha, if_true] at h
      cases hv : s.fb[a]? with
      | none => simp [hv] at h
      | some v =>
        simp only [hv, fbWrite, ha, if_true, hs] at h
        split_ifs at h
        cases h
        exact ⟨rfl, [], by simp, by simp⟩
    · simp [ha] at h
  | external =>
    simp only [updateWord, fbRead, hs] at h
    by_cases ha : a < s.cfg.words
    · simp only [ha, if_true, xmRead16, fbWrite, State.emit_cfg, hs] at h
      cases h
      refine ⟨by simp [SameButStore, xmWrite16, State.emit, State.setXm], ?_⟩
      exact ⟨[.xmR16 (wordBase s.cfg a) (s.xm.read16 (wordBase s.cfg a)),
        .xmW16 (wordBase s.cfg a) (f (s.xm.read16 (wordBase s.cfg a)))], by simp [xmWrite16], by simp [Event.usesPins]⟩
    · simp [ha] at h

/-- A run that completes changes the store and the trace only, and uses no pin. -/
theorem applyAccesses_frame {c : Colour} {acc : List Access} {s t : State} (h : applyAccesses c acc s = .next t) :
    SameButStore s t ∧ ∃ es, t.trace = s.trace ++ es ∧ ∀ e ∈ es, e.usesPins = false := by
  induction acc generalizing s with
  | nil => cases h; exact ⟨rfl, [], by simp, by simp⟩
  | cons x rest ih =>
    obtain ⟨u, h1, h2⟩ := andThen_eq_next.1 h
    obtain ⟨f1, es1, g1, k1⟩ := updateWord_frame h1
    obtain ⟨f2, es2, g2, k2⟩ := ih h2
    refine ⟨by rw [f1] at f2; exact f2, es1 ++ es2, by simp [g2, g1], fun e he => ?_⟩
    rcases List.mem_append.1 he with he | he
    · exact k1 e he
    · exact k2 e he

theorem pageEvents_not_pin (p : Plane) (cfg : Config) (m : Memory) (fuel off : Nat) :
    ∀ e ∈ pageEvents p cfg m fuel off, ∀ q v, e ≠ .pin q v := by
  induction fuel generalizing off with
  | zero => simp [pageEvents]
  | succ n ih =>
    simp only [pageEvents]
    split
    · intro e he q v
      rcases List.mem_cons.1 he with rfl | he
      · simp
      · rcases List.mem_append.1 he with he | he
        · obtain ⟨b, _, rfl⟩ := List.mem_map.1 he; simp
        · exact ih _ e he q v
    · simp

/-- A plane pass that completes: CS and DC end at 1, PAGEBUF (external only) and the trace move, nothing else does; between its four
opening events and the release there is no pin write (R171, R174). -/
theorem planePass_frame {cmd : Byte} {p : Plane} {s t : State} (h : planePass cmd p s = .next t) :
    ∃ buf data, t = { s with
        cs := true, dc := true, pagebuf := buf,
        trace := s.trace ++ ([.pin .cs false, .pin .dc false, .tx cmd, .pin .dc true] ++ data ++ [.pin .cs true]) }
      ∧ (s.cfg.store = .resident → buf = s.pagebuf) ∧ ∀ e ∈ data, ∀ q v, e ≠ .pin q v := by
  obtain ⟨u, h1, h2⟩ := andThen_eq_next.1 h
  cases h2
  rw [openDataFrame_eq] at h1
  cases hs : s.cfg.store with
  | resident =>
    simp only [streamPlane, hs] at h1
    split_ifs at h1
    cases h1
    refine ⟨s.pagebuf, ((s.fb.take s.cfg.words).map (planeByte p)).map .tx, ?_, fun _ => rfl, fun e he q v => ?_⟩
    · simp only [pin, txAll, State.emit, State.setLatch, List.append_assoc]
    · obtain ⟨b, _, rfl⟩ := List.mem_map.1 he
      simp
  | external =>
    simp only [streamPlane, hs] at h1
    split_ifs at h1
    cases h1
    rw [streamPages_eq]
    refine ⟨pagesBuffer s.cfg s.xm (2 * s.cfg.words) 0 s.pagebuf, pageEvents p s.cfg s.xm (2 * s.cfg.words) 0, ?_, nofun,
      pageEvents_not_pin _ _ _ _ _⟩
    simp only [pin, State.emit, State.setLatch, List.append_assoc]

/-! ## Every meaning keeps the shape of the state -/

/-- In a well-formed state an operation is refused, or completes (INIT may hold) in a well-formed state; it never faults (R202). -/
theorem exec_wf (i : Instr) {s : State} (h : s.wf) :
    (∃ r, exec i s = .refused r) ∨ ∃ t, exec i s = .next t ∧ t.wf := by
  have gate : ∀ k : State → Out, (∃ t, k s = .next t ∧ t.wf) →
      (∃ r, whenConfigured s k = .refused r) ∨ ∃ t, whenConfigured s k = .next t ∧ t.wf := by
    intro k hk
    by_cases hi : s.ioen = true
    · rw [whenConfigured_of_ioen hi]; exact .inr hk
    · rw [whenConfigured_of_not (by simpa using hi)]; exact .inl ⟨_, rfl⟩
  cases i with
  | setrot r => exact .inr ⟨_, rfl, h⟩
  | hline x y w c =>
    obtain ⟨t, h1, h2⟩ := draw_spec h c (rotateHline s.cfg s.rot x y w)
    exact .inr ⟨t, h1, h2.wf⟩
  | vline x y n c =>
    obtain ⟨t, h1, h2⟩ := draw_spec h c (rotateVline s.cfg s.rot x y n)
    exact .inr ⟨t, h1, h2.wf⟩
  | dcmode m =>
    simp only [exec, execDcmode]
    exact gate _ ⟨_, rfl, h⟩
  | sendcmd code ar =>
    simp only [exec, execSendcmd]
    refine gate _ ⟨_, rfl, ?_⟩
    rw [commandByte_eq]
    split <;> exact h
  | sendcmddata code n bytes =>
    simp only [exec, execSendcmddata]
    split
    · refine gate _ ⟨_, rfl, ?_⟩
      rw [sendAndRelease_eq, openDataFrame_eq]
      exact h
    · exact .inl ⟨_, rfl⟩
  | senddata n bytes =>
    simp only [exec, execSenddata]
    split
    · refine gate _ ⟨_, rfl, ?_⟩
      rw [sendAndRelease_eq]
      exact h
    · exact .inl ⟨_, rfl⟩
  | flush =>
    simp only [exec, execFlush]
    refine gate _ ?_
    rw [planePass_eq h, andThen_next]
    have h2 := planePass_wf h (planeEvents s.cfg.cmdBw .bw s)
    split
    · exact ⟨_, rfl, h2⟩
    · rw [planePass_eq h2]
      exact ⟨_, rfl, planePass_wf h2 _⟩
  | init rp =>
    refine .inr ⟨_, rfl, ?_⟩
    rw [busyWait_eq]
    split
    · rw [resetPulse_eq]; exact h
    · exact h

end Sys2Proof.Machine
end

