-- ==== Sys2Proof/Laws/Trace.lean ====
section
/-! SUPPORT. The trace: the level of a pin after it, what every operation appends to it; and the unrolling of a run. -/

namespace Sys2Proof.Machine

/-- The level of a pin after two traces, one after the other. -/
theorem levelAfter_append (p : Pin) (v : Level) (a b : List Event) :
    levelAfter p v (a ++ b) = levelAfter p (levelAfter p v a) b := by
  induction a generalizing v with
  | nil => rfl
  | cons e r ih => cases e <;> simp [levelAfter, ih]

/-- Events that write no pin leave every level. -/
theorem levelAfter_of_no_pin (p : Pin) (v : Level) (a : List Event) (h : ∀ e ∈ a, ∀ q u, e ≠ .pin q u) :
    levelAfter p v a = v := by
  induction a generalizing v with
  | nil => rfl
  | cons e r ih =>
    have he := h e (by simp)
    have hr := fun w => ih w fun d hd => h d (by simp [hd])
    cases e with
    | pin q u => exact absurd rfl (he q u)
    | _ => simp [levelAfter, hr]

/-- Events that use no pin leave every level. -/
theorem levelAfter_of_unused (p : Pin) (v : Level) (a : List Event) (h : ∀ e ∈ a, e.usesPins = false) : levelAfter p v a = v :=
  levelAfter_of_no_pin p v a fun e he q u hh => by subst hh; simpa [Event.usesPins] using h _ he

/-- What every operation that completes (or holds) does to the trace and the latches: it appends events, the latches move as those
events say, and while IOEN is 0 afterwards no event used a pin, IOEN was 0 before and INIT has not begun to hold (R34, R157). -/
theorem exec_trace {i : Instr} {s t : State} (h : exec i s = .next t) :
    ∃ es, t.trace = s.trace ++ es ∧ (∀ p, levelAfter p (s.latch p) es = t.latch p)
      ∧ (t.ioen = false → ∀ e ∈ es, e.usesPins = false)
      ∧ (t.ioen = false → s.ioen = false ∧ t.phase = s.phase) := by
  cases i with
  | setrot r => cases h; exact ⟨[], by simp, by intro p; cases p <;> rfl, by simp, fun h => ⟨h, rfl⟩⟩
  | hline x y w c =>
    simp only [exec, execHline] at h
    split_ifs at h
    · cases h; exact ⟨[], by simp, by intro p; cases p <;> rfl, by simp, fun h => ⟨h, rfl⟩⟩
    · obtain ⟨hf, es, h1, h2⟩ := applyAccesses_frame h
      refine ⟨es, h1, fun p => ?_, fun _ => h2, ?_⟩
      · rw [levelAfter_of_unused _ _ _ h2, hf]; cases p <;> rfl
      · rw [hf]; exact fun h => ⟨h, rfl⟩
  | vline x y w c =>
    simp only [exec, execVline] at h
    split_ifs at h
    · cases h; exact ⟨[], by simp, by intro p; cases p <;> rfl, by simp, fun h => ⟨h, rfl⟩⟩
    · obtain ⟨hf, es, h1, h2⟩ := applyAccesses_frame h
      refine ⟨es, h1, fun p => ?_, fun _ => h2, ?_⟩
      · rw [levelAfter_of_unused _ _ _ h2, hf]; cases p <;> rfl
      · rw [hf]; exact fun h => ⟨h, rfl⟩
  | dcmode m =>
    simp only [exec, execDcmode, whenConfigured] at h
    split_ifs at h with hi
    cases h
    exact ⟨[.pin .dc m], by simp [pin], by intro p; cases p <;> rfl, by simp [pin, hi], by simp [pin, hi]⟩
  | sendcmd code ar =>
    simp only [exec, execSendcmd, whenConfigured] at h
    split_ifs at h with hi ha
    · cases h
      rw [commandByte_eq]
      exact ⟨[.pin .cs false, .pin .dc false, .tx code, .pin .cs true], by simp [pin],
        by intro p; cases p <;> rfl, by simp [pin, hi], by simp [pin, hi]⟩
    · cases h
      rw [commandByte_eq]
      exact ⟨[.pin .cs false, .pin .dc false, .tx code], by simp, by intro p; cases p <;> rfl, by simp [ hi], by simp [hi]⟩
  | sendcmddata code n bytes =>
    simp only [exec, execSendcmddata, whenConfigured] at h
    split_ifs at h with hn hi
    cases h
    rw [sendAndRelease_eq, openDataFrame_eq]
    refine ⟨[.pin .cs false, .pin .dc false, .tx code, .pin .dc true] ++ bytes.map .tx ++ [.pin .cs true], by simp, ?_,
      by simp [hi], by simp [hi]⟩
    intro p
    rw [levelAfter_append, levelAfter_append, levelAfter_of_no_pin p _ (bytes.map .tx) (by simp)]
    cases p <;> rfl
  | senddata n bytes =>
    simp only [exec, execSenddata, whenConfigured] at h
    split_ifs at h with hn hi
    cases h
    rw [sendAndRelease_eq]
    refine ⟨bytes.map .tx ++ [.pin .cs true], by simp, ?_, by simp [ hi], by simp [hi]⟩
    intro p
    rw [levelAfter_append, levelAfter_of_no_pin p _ (bytes.map .tx) (by simp)]
    cases p <;> rfl
  | flush =>
    simp only [exec, execFlush, whenConfigured] at h
    split_ifs at h with hi
    obtain ⟨u, h1, h2⟩ := andThen_eq_next.1 h
    obtain ⟨buf, data, rfl, -, hd⟩ := planePass_frame h1
    simp only at h2
    cases hc : s.cfg.cmdHl with
    | none =>
      rw [hc] at h2; cases h2
      refine ⟨_, rfl, ?_, by simp [hi], by simp [hi]⟩
      intro p
      rw [levelAfter_append, levelAfter_append, levelAfter_of_no_pin p _ data hd]
      cases p <;> rfl
    | some cmd =>
      rw [hc] at h2
      obtain ⟨buf2, data2, rfl, -, hd2⟩ := planePass_frame h2
      refine ⟨_, by simp only [List.append_assoc]; rfl, ?_, by simp [hi], by simp [hi]⟩
      intro p
      simp only [levelAfter_append, levelAfter_of_no_pin p _ data hd, levelAfter_of_no_pin p _ data2 hd2]
      cases p <;> rfl
  | init rp =>
    simp only [exec, execInit] at h
    cases h
    cases rp
    · exact ⟨[], by simp [busyWait_eq], by intro p; cases p <;> rfl, by simp, by simp [busyWait_eq]⟩
    · simp only [resetPulse_eq, busyWait_eq, if_true]
      exact ⟨_, rfl, by intro p; cases p <;> rfl, by simp, by simp⟩

/-! ## Runs of the core -/

/-- One more step of a run: the step, then the rest. -/
theorem core_run_succ (M : Host.Core) (n : Nat) (s : M.State) :
    M.run (n + 1) s = (match M.step s with
      | .next t => M.run n t
      | .fault f => .fault f
      | .refused r => .refused r) := rfl

/-- A run whose first step answers a next state goes on from it. -/
theorem run_succ_of_next {s t : State} (n : Nat) (h : step s = .next t) :
    Sys2Proof.core.run (n + 1) s = Sys2Proof.core.run n t := by
  have h' : Sys2Proof.core.step s = .next t := h
  exact (core_run_succ Sys2Proof.core n s).trans (by rw [h'])

/-- A run that ends in a next state begins with a step that answers one. -/
theorem run_succ_next {s u : State} {k : Nat} (h : Sys2Proof.core.run (k + 1) s = .next u) :
    ∃ t, step s = .next t ∧ Sys2Proof.core.run k t = .next u := by
  have h' := (core_run_succ Sys2Proof.core k s).symm.trans h
  cases h2 : Sys2Proof.core.step s with
  | next t => rw [h2] at h'; exact ⟨t, h2, h'⟩
  | fault f => rw [h2] at h'; cases h'
  | refused f => rw [h2] at h'; cases h'

end Sys2Proof.Machine
end

