-- ==== Sys2Proof/Tests/Slice0.lean ====
section
/-! SUPPORT. The model's own tests: WellFormed's checks, words written out from spec/30_encoding.md, single operations on small states
with the results of spec/95_test_vectors.md, and for every statement with hypotheses a state and operands that meet them. -/

namespace Sys2Proof.Tests

open Sys2Proof Sys2Proof.Machine

/-! ## Small machines -/

/-- A resident panel with the command codes of 95_test_vectors.md; IOEN = 1, BUSY = 0. -/
def resident (w h : Nat) (fb : List Word) : State :=
  { State.resetWith { Config.atReset with width := w, height := h, cmdBw := 0x24, cmdHl := some 0x26 } fb [] ⟨0, []⟩ false [] [] with
    ioen := true }

/-- An external panel, `EXT_BASE = 16` and `PAGE_BYTES = 6`, its unlisted bytes 0. -/
def external (w h : Nat) (cells : List Host.Cell) : State :=
  { resident w h [] with
    cfg := { (resident w h []).cfg with store := .external, extBase := 16, pageBytes := 6 }
    pagebuf := [0, 0, 0, 0, 0, 0]
    xm := ⟨0, cells⟩ }

/-- Panel A of 95_test_vectors.md, every word `v`. -/
def panelA (v : Word) : State := resident 16 16 (List.replicate 32 v)

/-- Panel B of 95_test_vectors.md, all zero, under a rotation. -/
def panelB (r : Rotation) : State := { resident 16 24 (List.replicate 48 0) with rot := r }

/-- The words of the framebuffer that an operation leaves different from `v`, with their addresses. -/
def wordsNot (v : Word) (o : Out) : Option (List (Nat × Word)) :=
  (stateOf? o).map fun t => (t.fb.zipIdx.filter fun p => p.1 != v).map fun p => (p.2, p.1)

/-- The whole trace an operation leaves. -/
def traceOf (o : Out) : Option (List Event) := (stateOf? o).map (·.trace)

/-! ## WellFormed: one ill-formed operation for each check (R91, R92, R93) -/

theorem test_wf_refuses_x_above : (Instr.hline 32768 0 1 .black).wf = false := by decide
theorem test_wf_refuses_y_below : (Instr.hline 0 (-32769) 1 .black).wf = false := by decide
theorem test_wf_refuses_w_above : (Instr.hline 0 0 32768 .black).wf = false := by decide
theorem test_wf_refuses_vline_operands :
    (Instr.vline (-32769) 0 1 .white).wf = false ∧ (Instr.vline 0 32768 1 .white).wf = false
      ∧ (Instr.vline 0 0 (-32769) .white).wf = false := by decide
theorem test_wf_refuses_count_above (bytes : List Byte) : (Instr.senddata 65536 bytes).wf = false := rfl
theorem test_wf_refuses_payload_short : (Instr.sendcmddata 1 3 [0xC7, 0x00]).wf = false := by decide
theorem test_wf_refuses_payload_long : (Instr.senddata 0 [0xC7]).wf = false := by decide

/-! ## Decoding: words written out field by field from R88 to R91 (OP, SEL, FLG, Z, CODE, X, Y, LEN) -/

/-- V-E6: OP 0001, SEL 10. -/
theorem test_decode_setrot :
    decode ⟨0b0001#4 ++ 0b10#2 ++ 0b0#1 ++ 0b0#1 ++ 0x00#8 ++ 0x0000#16 ++ 0x0000#16 ++ 0x0000#16, []⟩
      = .ok (.setrot .deg180) := by decide

/-- V-E2: OP 0010, SEL 01, X -3, Y 5, LEN 20. -/
theorem test_decode_hline :
    decode ⟨0b0010#4 ++ 0b01#2 ++ 0b0#1 ++ 0b0#1 ++ 0x00#8 ++ 0xFFFD#16 ++ 0x0005#16 ++ 0x0014#16, []⟩
      = .ok (.hline (-3) 5 20 .white) := by decide

/-- V-E4: OP 0011, SEL 11, X -32768, Y 32767, LEN -32768. -/
theorem test_decode_vline :
    decode ⟨0b0011#4 ++ 0b11#2 ++ 0b0#1 ++ 0b0#1 ++ 0x00#8 ++ 0x8000#16 ++ 0x7FFF#16 ++ 0x8000#16, []⟩
      = .ok (.vline (-32768) 32767 (-32768) .highlight) := by decide

/-- V-F3: OP 0100, FLG 1. -/
theorem test_decode_dcmode :
    decode ⟨0b0100#4 ++ 0b00#2 ++ 0b1#1 ++ 0b0#1 ++ 0x00#8 ++ 0x0000#16 ++ 0x0000#16 ++ 0x0000#16, []⟩
      = .ok (.dcmode true) := by decide

/-- V-F1: OP 0101, FLG 1, CODE 0x12. -/
theorem test_decode_sendcmd :
    decode ⟨0b0101#4 ++ 0b00#2 ++ 0b1#1 ++ 0b0#1 ++ 0x12#8 ++ 0x0000#16 ++ 0x0000#16 ++ 0x0000#16, []⟩
      = .ok (.sendcmd 0x12 true) := by decide

/-- V-F5: OP 0110, CODE 0x01, LEN 3. -/
theorem test_decode_sendcmddata :
    decode ⟨0b0110#4 ++ 0b00#2 ++ 0b0#1 ++ 0b0#1 ++ 0x01#8 ++ 0x0000#16 ++ 0x0000#16 ++ 0x0003#16, [0xC7, 0x00, 0x00]⟩
      = .ok (.sendcmddata 0x01 3 [0xC7, 0x00, 0x00]) := by decide

/-- V-F7: OP 0111, LEN 2. -/
theorem test_decode_senddata :
    decode ⟨0b0111#4 ++ 0b00#2 ++ 0b0#1 ++ 0b0#1 ++ 0x00#8 ++ 0x0000#16 ++ 0x0000#16 ++ 0x0002#16, [0xAA, 0x55]⟩
      = .ok (.senddata 2 [0xAA, 0x55]) := by decide

/-- V-FL1: OP 1000. -/
theorem test_decode_flush :
    decode ⟨0b1000#4 ++ 0b00#2 ++ 0b0#1 ++ 0b0#1 ++ 0x00#8 ++ 0x0000#16 ++ 0x0000#16 ++ 0x0000#16, []⟩ = .ok .flush := by decide

/-- V-I1: OP 1001, FLG 1. -/
theorem test_decode_init :
    decode ⟨0b1001#4 ++ 0b00#2 ++ 0b1#1 ++ 0b0#1 ++ 0x00#8 ++ 0x0000#16 ++ 0x0000#16 ++ 0x0000#16, []⟩
      = .ok (.init true) := by decide

/-- V-E7 to V-E12: the reserved words. -/
theorem test_decode_reserved :
    ([0x0000000000000000, 0xA000000000000000, 0x2100000000000001, 0x8000000000000001, 0x1400000100000000,
        0x5624000000000000].all fun w => decide (decode ⟨w, []⟩ = .error .reservedEncoding)) = true := by decide

/-- V-E5: LEN of the framer is unsigned: the word asks for 65535 payload bytes. -/
theorem test_decode_count_unsigned : payloadCountOf 0x60FF00000000FFFF = 65535 := by decide

/-- V-F12: a payload of the wrong length is refused. -/
theorem test_decode_payload_short : decode ⟨0x6001000000000003, [0xC7, 0x00]⟩ = .error .badPayload := by decide

/-- The opcode table's numbering: the payload of a row with 64 bits is zeros. -/
theorem test_decodeTableWord :
    decodeTableWord 64 0x7000000000000002 = some (.senddata 2 [0, 0]) ∧ decodeTableWord 64 0xA000000000000000 = none := by decide

/-! ## One operation, from 95_test_vectors.md -/

theorem test_setrot : (stateOf? (exec (.setrot .deg270) (panelA 0))).map (·.rot) = some .deg270 := by decide

/-- V-H2: clamped at the low edge. -/
theorem test_hline : wordsNot 0 (exec (.hline (-2) 9 5 .black) (panelA 0)) = some [(1, 0x40), (3, 0x40), (5, 0x40)] := by decide

/-- V-R1a: rotated by 90 degrees, an unaligned vertical run. -/
theorem test_hline_rotated : wordsNot 0 (exec (.hline 1 2 3 .black) (panelB .deg90)) = some [(39, 0xE0)] := by decide

/-- V-V9: the highlight plane, one block and four bits. -/
theorem test_vline :
    wordsNot 0x1234 (exec (.vline 1 0 12 .highlight) (panelA 0x1234)) = some [(2, 0xFF34), (3, 0xF234)] := by decide

/-- V-R3b: rotated by 270 degrees. -/
theorem test_vline_rotated :
    wordsNot 0 (exec (.vline 1 2 3 .black) (panelB .deg270)) = some [(8, 0x02), (11, 0x02), (14, 0x02)] := by decide

/-- Program 4, command 1: an external block and partial block, event by event. -/
theorem test_vline_external :
    traceOf (exec (.vline 1 0 11 .black) (external 2 16 [(19, 0xF0), (20, 0x80), (21, 0x01)]))
      = some [.xmR16 20 0x8001, .xmW16 20 0x80FF, .xmR16 22 0x0000, .xmW16 22 0x0080, .xmR16 22 0x0080, .xmW16 22 0x00C0,
          .xmR16 22 0x00C0, .xmW16 22 0x00E0] := by decide

/-- V-F4. -/
theorem test_dcmode : traceOf (exec (.dcmode false) (panelA 0)) = some [.pin .dc false] := by decide

/-- V-F2: the frame stays open. -/
theorem test_sendcmd :
    traceOf (exec (.sendcmd 0x24 false) (panelA 0)) = some [.pin .cs false, .pin .dc false, .tx 0x24] := by decide

/-- V-F5. -/
theorem test_sendcmddata :
    traceOf (exec (.sendcmddata 0x01 3 [0xC7, 0x00, 0x00]) (panelA 0))
      = some [.pin .cs false, .pin .dc false, .tx 0x01, .pin .dc true, .tx 0xC7, .tx 0x00, .tx 0x00, .pin .cs true] := by decide

/-- V-F9: the byte goes out with chip-select released and in command mode. -/
theorem test_senddata :
    traceOf (exec (.senddata 1 [0x77]) { panelA 0 with dc := false }) = some [.tx 0x77, .pin .cs true] := by decide

/-- V-FL1. -/
theorem test_flush :
    traceOf (exec .flush (resident 2 8 [0x12FF, 0x0080]))
      = some [.pin .cs false, .pin .dc false, .tx 0x24, .pin .dc true, .tx 0xFF, .tx 0x80, .pin .cs true,
          .pin .cs false, .pin .dc false, .tx 0x26, .pin .dc true, .tx 0x12, .tx 0x00, .pin .cs true] := by decide

/-- V-FL3: external, the last chunk short. -/
theorem test_flush_external :
    traceOf (exec .flush (external 2 16 [(18, 0x40), (19, 0xF0), (20, 0x80), (21, 0xFF), (22, 0x40), (23, 0xE0)]))
      = some [.pin .cs false, .pin .dc false, .tx 0x24, .pin .dc true,
          .xmR 16 6 [0x00, 0x00, 0x40, 0xF0, 0x80, 0xFF], .tx 0x00, .tx 0xF0, .tx 0xFF, .xmR 22 2 [0x40, 0xE0], .tx 0xE0,
          .pin .cs true, .pin .cs false, .pin .dc false, .tx 0x26, .pin .dc true,
          .xmR 16 6 [0x00, 0x00, 0x40, 0xF0, 0x80, 0xFF], .tx 0x00, .tx 0x40, .tx 0x80, .xmR 22 2 [0x40, 0xE0], .tx 0x40,
          .pin .cs true] := by decide

/-- V-I1, from the reset state. -/
theorem test_init :
    traceOf (exec (.init true) State.reset)
      = some [.pin .rst true, .delay 1, .pin .rst false, .delay 10, .pin .rst true] := by decide

/-- V-I3: BUSY asserted; INIT has configured the I/O and holds. -/
theorem test_init_holds :
    (stateOf? (exec (.init false) { State.reset with busy := true })).map (fun t => (t.ioen, t.phase))
      = some (true, .initWait) := by decide

/-! ## Witnesses: for each statement with hypotheses, a state and operands that meet them together -/

/-- The state with one command at the head of the host's list. -/
def handed (s : State) (w : CommandWord) (payload : List Byte) : State := { s with commands := [⟨w, payload⟩] }

/-- A 2 by 8 external panel in the words `[0x8100, 0x0000]`. -/
def smallExternal : State := external 2 8 [(16, 0x81)]

/-- A 2 by 8 resident panel in the same words. -/
def smallResident : State := resident 2 8 [0x8100, 0x0000]

theorem small_same (a : Nat) : fbPeek smallResident a = fbPeek smallExternal a := by
  rcases a with _ | _ | a
  · rfl
  · rfl
  · have h : ¬ a + 1 + 1 < 2 := by omega
    have h1 : ¬ a + 1 + 1 < smallResident.cfg.words := h
    have h2 : ¬ a + 1 + 1 < smallExternal.cfg.words := h
    simp only [fbPeek, h1, h2, if_false]

/-- DecodeOfEncodeIsTheInstruction, at the ends of the operand ranges. -/
theorem witness_encode :
    (Instr.hline (-32768) 32767 (-32768) .highlight).wf = true ∧ (Instr.vline 32767 (-32768) 32767 .invert).wf = true
      ∧ (Instr.sendcmddata 0xFF 2 [0, 0xFF]).wf = true ∧ (Instr.senddata 0 []).wf = true := by decide

/-- EncodeOfDecodeIsTheCommand, DecodableWordsAreThoseOfTheOpcodeTable. -/
theorem witness_decode :
    decode ⟨0x3C0080007FFF8000, []⟩ = .ok (.vline (-32768) 32767 (-32768) .highlight)
      ∧ (⟨.vline, 0x3000000000000000, 0xF3FF000000000000⟩ : TableRow) ∈ opcodeTable := by decide

/-- ReservedWordsAreRefused, second clause. -/
theorem witness_reserved :
    (handed State.reset 0xF000000000000000 []).cfg.wf = true ∧ (handed State.reset 0xF000000000000000 []).phase = .idle
      ∧ (handed State.reset 0xF000000000000000 []).commands = ⟨0xF000000000000000, []⟩ :: []
      ∧ decode ⟨0xF000000000000000, []⟩ = .error .reservedEncoding := by decide

/-- PayloadOfTheWrongLengthIsRefused, both clauses. -/
theorem witness_payload :
    (handed State.reset 0x7000000000000002 [0xAA]).cfg.wf = true ∧ (handed State.reset 0x7000000000000002 [0xAA]).phase = .idle
      ∧ (handed State.reset 0x7000000000000002 [0xAA]).commands = ⟨0x7000000000000002, [0xAA]⟩ :: []
      ∧ decode ⟨0x7000000000000002, [0xAA]⟩ = .error .badPayload
      ∧ decode ⟨0x7000000000000002, [0xAA]⟩ ≠ .error .reservedEncoding := by decide

/-- StepRunsTheDecodedInstruction. -/
theorem witness_step :
    (handed State.reset 0x9200000000000000 []).cfg.wf = true ∧ (handed State.reset 0x9200000000000000 []).phase = .idle
      ∧ (handed State.reset 0x9200000000000000 []).commands = ⟨0x9200000000000000, []⟩ :: []
      ∧ decode ⟨0x9200000000000000, []⟩ = .ok (.init true) := by decide

/-- PlacedCommandRunsNext. -/
theorem witness_placed : State.reset.cfg.wf = true ∧ decodeTableWord 64 0x9200000000000000 = some (.init true) := by decide

/-- IdleBlockWaitsForTheHost, both clauses. -/
theorem witness_idle :
    (State.reset.cfg.wf = true ∧ State.reset.phase = .idle ∧ State.reset.commands = [])
      ∧ (resident 0 8 []).cfg.wf = false ∧ (resident 32768 8 []).cfg.wf = false := by decide

/-- StepKeepsStateWellFormed, StepNeverFaults, StepKeepsPinsRecorded, StepKeepsQuietBeforeInit: a step from reset. -/
theorem witness_invariants :
    (handed State.reset 0x9200000000000000 []).wf ∧ (handed State.reset 0x9200000000000000 []).pinsRecorded
      ∧ (handed State.reset 0x9200000000000000 []).quietBeforeInit ∧ State.reset.ioen = false
      ∧ ∃ t, step (handed State.reset 0x9200000000000000 []) = .next t :=
  ⟨by decide, by decide, fun _ => ⟨rfl, nofun⟩, rfl, _, rfl⟩

/-- The same statements on an external machine whose INIT has run. -/
theorem witness_invariants_external :
    (handed smallExternal 0x8000000000000000 []).wf ∧ (handed smallExternal 0x8000000000000000 []).pinsRecorded
      ∧ ∃ t, step (handed smallExternal 0x8000000000000000 []) = .next t := ⟨by decide, by decide, _, rfl⟩

/-- ResetStatesAreWellFormed: parameters and contents of either store. -/
theorem witness_reset :
    (smallResident.cfg.wf = true ∧ smallResident.xm.wf ∧ smallResident.fb.length = smallResident.cfg.words
        ∧ smallResident.pagebuf = [] ∧ smallResident.xm.cells = [])
      ∧ smallExternal.cfg.wf = true ∧ smallExternal.xm.wf ∧ smallExternal.fb = []
        ∧ smallExternal.pagebuf.length = smallExternal.cfg.pageBytes := by decide

/-- EachPieceIsWrittenOnlyByItsOperations, ChipSelectAtTheEndOfAnOperation, BusyIsReadOnlyByInit, RotationIsReadOnlyByDraws: every
operation completes somewhere. -/
theorem witness_completes :
    ∀ i ∈ [Instr.setrot .deg90, .hline 0 0 2 .invert, .vline 0 0 8 .black, .dcmode true, .sendcmd 1 true, .sendcmd 1 false,
      .sendcmddata 1 1 [2], .senddata 1 [2], .flush, .init true], ∃ t, exec i smallResident = .next t := by
  simp only [List.forall_mem_cons]
  exact ⟨⟨_, rfl⟩, ⟨_, rfl⟩, ⟨_, rfl⟩, ⟨_, rfl⟩, ⟨_, rfl⟩, ⟨_, rfl⟩, ⟨_, rfl⟩, ⟨_, rfl⟩, ⟨_, rfl⟩, ⟨_, rfl⟩, by simp⟩

/-- BusyIsReadOnlyByInit and RotationIsReadOnlyByDraws, the refusals; IoenIsSetByInitAndNeverCleared, fourth clause;
BusOperationsNeedInit. -/
theorem witness_refused :
    exec .flush State.reset = .refused .ioNotConfigured ∧ (Instr.flush).wf = true ∧ State.reset.ioen = false
      ∧ Opcode.flush ∈ [Opcode.dcmode, .sendcmd, .sendcmddata, .senddata, .flush] := ⟨rfl, by decide⟩

/-- IoenIsSetByInitAndNeverCleared, third and fifth clauses. -/
theorem witness_ioen :
    smallResident.ioen = true ∧ (∃ t, step (handed smallResident 0x4000000000000000 []) = .next t)
      ∧ ∃ t, exec (.vline 0 0 8 .invert) smallResident = .next t := ⟨rfl, ⟨_, rfl⟩, _, rfl⟩

/-- HighlightBitsAreNeverCleared: a run of two steps, the first of them a block drawn WHITE, from words with highlight bits. -/
theorem witness_highlight :
    smallExternal.wf ∧ fbPeek smallExternal 0 = some 0x8100
      ∧ ∃ t, Sys2Proof.core.run 2 (handed smallExternal 0x3400000000000008 []) = .next t := ⟨by decide, rfl, _, rfl⟩

/-- ApplyBitFollowsTheColourRule, ColourLaws: the ends of the row-in-word's range. -/
theorem witness_row : (0 ≤ 7 ∧ 0 < 16) ∧ (7 ≤ 7 ∧ 15 < 16) ∧ ∀ k, Lanes.pixel 7 = .pixel k → k ≤ 7 :=
  ⟨by decide, by decide, fun k h => by cases h; decide⟩

/-- TransformMapsLogicalPixelsToNativePixels: a whole logical row and a whole logical column under each rotation. -/
theorem witness_transform (rot : Rotation) :
    (0 + 16 ≤ logicalWidth (panelA 0).cfg rot ∧ 15 < logicalHeight (panelA 0).cfg rot)
      ∧ 15 < logicalWidth (panelA 0).cfg rot ∧ 0 + 16 ≤ logicalHeight (panelA 0).cfg rot ∧ 15 < 16 := by
  cases rot <;> decide

/-- TransformFitsEighteenBits: the extreme operands and parameters. -/
theorem witness_extremes :
    (resident 32767 32767 []).cfg.wf = true ∧ (resident 1 1 []).cfg.wf = true
      ∧ fitsSigned16 (-32768) = true ∧ fitsSigned16 32767 = true := by decide

/-- HlineDrawsItsRun, VlineDrawsItsRun (a colour with and without its plane, both stores), HorizontalRunChangesExactlyItsPixels and
VerticalRunStartsAtTheTopOfItsWord: a well-formed machine whose height is a multiple of 8. -/
theorem witness_draw :
    smallResident.wf ∧ smallExternal.wf ∧ smallResident.cfg.height % 8 = 0 ∧ smallExternal.cfg.height % 8 = 0
      ∧ hlineAccesses smallResident.cfg smallResident.rot 0 7 2 = [⟨0, .pixel 7⟩, ⟨1, .pixel 7⟩]
      ∧ vlineAccesses smallExternal.cfg smallExternal.rot 1 0 8 = [⟨1, .block⟩]
      ∧ (clampSpan smallResident.cfg.height 5 9).1 / 8 = 0 ∧ (clampSpan smallResident.cfg.height 5 9).2 = 3 := by decide

/-- HighlightWithoutThePlaneIsDropped. -/
theorem witness_no_plane : { smallResident with cfg := { smallResident.cfg with hasHl := false } }.cfg.hasHl = false := rfl

/-- RunsOffThePanelLeaveTheStateUnchanged: each disjunct at its boundary. -/
theorem witness_off_panel :
    (0 : Int) ≤ 0 ∧ (-1 : Int) < 0 ∧ (logicalHeight smallResident.cfg smallResident.rot : Int) ≤ 8 ∧ (-5 : Int) + 5 ≤ 0
      ∧ (logicalWidth smallResident.cfg smallResident.rot : Int) ≤ 2 := by decide

/-- HlineRoundTrip: panel B, a run under each rotation that meets the condition of P1. -/
theorem witness_hline_round_trip (rot : Rotation) :
    (panelB rot).wf ∧ (panelB rot).cfg.height % 8 = 0 ∧ 8 + 8 ≤ logicalWidth (panelB rot).cfg (panelB rot).rot
      ∧ 15 < logicalHeight (panelB rot).cfg (panelB rot).rot ∧ ((panelB rot).rot = .deg90 → 8 % 8 = 0)
      ∧ ((panelB rot).rot = .deg270 → ((panelB rot).cfg.height - 8 - 8) % 8 = 0) := by
  cases rot <;> decide

/-- VlineRoundTrip: the same for a vertical run. -/
theorem witness_vline_round_trip (rot : Rotation) :
    (panelB rot).wf ∧ (panelB rot).cfg.height % 8 = 0 ∧ 15 < logicalWidth (panelB rot).cfg (panelB rot).rot
      ∧ 8 + 8 ≤ logicalHeight (panelB rot).cfg (panelB rot).rot ∧ ((panelB rot).rot = .deg0 → 8 % 8 = 0)
      ∧ ((panelB rot).rot = .deg180 → ((panelB rot).cfg.height - 8 - 8) % 8 = 0) := by
  cases rot <;> decide

/-- SameRunDrawnTwice. -/
theorem witness_twice :
    smallExternal.wf ∧ ∃ t u, exec (.hline 0 7 2 .invert) smallExternal = .next t ∧ exec (.hline 0 7 2 .invert) t = .next u :=
  ⟨by decide, _, _, rfl, rfl⟩

/-- DrawEventCounts, each clause: a rotated HLINE that ends in VRUN and starts off the panel, a VLINE that ends in HRUN and runs off
the panel, a run that is clamped to nothing, and a column off the panel. -/
theorem witness_counts :
    smallExternal.wf ∧ smallExternal.cfg.store = .external ∧ smallExternal.cfg.hasHl = true
      ∧ (rotateHline smallExternal.cfg .deg90 (-1) 1 9).axis = .vertical
      ∧ (rotateHline smallExternal.cfg .deg90 (-1) 1 9).x = 0 ∧ (0, 8) = clampSpan 8 (-1) 9
      ∧ (rotateVline smallExternal.cfg .deg270 7 1 9).axis = .horizontal
      ∧ (rotateVline smallExternal.cfg .deg270 7 1 9).y = 0 ∧ (1, 1) = clampSpan 2 1 9
      ∧ (2, 0) = clampSpan 2 2 9 ∧ (rotateVline smallExternal.cfg .deg0 2 0 8).x = smallExternal.cfg.width := by decide

/-- LastPartialRowsAliasTheNextColumn: the source's panel, its last pair of columns and its last row. -/
theorem witness_alias : 198 + 1 < (resident 200 300 []).cfg.width ∧ 3 < (resident 200 300 []).cfg.height % 8 := by decide

/-- ResidentStoreReadsAndWrites, ExternalWordsAreHighByteFirst, EveryReadSeesTheLatestWrite: the last word of each store. -/
theorem witness_store :
    smallResident.wf ∧ smallResident.cfg.store = .resident ∧ 1 < smallResident.cfg.words
      ∧ smallExternal.wf ∧ smallExternal.cfg.store = .external ∧ 1 < smallExternal.cfg.words := by decide

/-- DrawsDoTheSameInBothStores, FlushIsTheSameOnTheBusInBothStores. -/
theorem witness_both_stores :
    smallResident.wf ∧ smallExternal.wf ∧ smallResident.ioen = true ∧ smallExternal.ioen = true
      ∧ smallResident.cfg.store = .resident ∧ smallExternal.cfg.store = .external
      ∧ smallExternal.cfg = { smallResident.cfg with
          store := .external, extBase := smallExternal.cfg.extBase, pageBytes := smallExternal.cfg.pageBytes }
      ∧ smallResident.rot = smallExternal.rot ∧ (∀ a, fbPeek smallResident a = fbPeek smallExternal a) :=
  ⟨by decide, by decide, rfl, rfl, rfl, rfl, rfl, rfl, small_same⟩

/-- DcmodeWritesOnlyDc, SendcmdSendsOneCommandByte, SendcmddataSendsOneFrame, SenddataSendsAndReleases, SendcmddataEqualsItsThreeParts,
PanelSeesTheFrames (both clauses): from a state with IOEN = 1. -/
theorem witness_frames :
    smallResident.ioen = true ∧ (∃ t, exec (.sendcmddata 1 ([] : List Byte).length []) smallResident = .next t)
      ∧ ∃ t, exec (.senddata [0x77].length [0x77]) smallResident = .next t := ⟨rfl, ⟨_, rfl⟩, _, rfl⟩

/-- FlushStreamsEveryWord and ResidentFlushEvents. -/
theorem witness_flush :
    smallExternal.wf ∧ smallExternal.ioen = true ∧ [0x8100#16, 0x0000#16].length = smallExternal.cfg.words
      ∧ (∀ a, a < smallExternal.cfg.words → fbPeek smallExternal a = [0x8100#16, 0x0000#16][a]?)
      ∧ smallResident.wf ∧ smallResident.ioen = true ∧ smallResident.cfg.store = .resident := by decide

/-- ExternalFlushEvents: two chunks, the last of them short (V-FL3). -/
theorem witness_flush_external :
    (external 2 16 []).wf ∧ (external 2 16 []).ioen = true ∧ (external 2 16 []).cfg.store = .external
      ∧ chunkCount (external 2 16 []).cfg = 2 ∧ chunkLength (external 2 16 []).cfg 1 = 2 := by decide

/-- V-FL3's first pass, through the functions of ExternalFlushEvents. -/
theorem test_passEvents :
    passEvents 0x24 .bw (external 2 16 []).cfg ⟨0, [(18, 0x40), (19, 0xF0), (20, 0x80), (21, 0xFF), (22, 0x40), (23, 0xE0)]⟩
      = [.pin .cs false, .pin .dc false, .tx 0x24, .pin .dc true,
          .xmR 16 6 [0x00, 0x00, 0x40, 0xF0, 0x80, 0xFF], .tx 0x00, .tx 0xF0, .tx 0xFF, .xmR 22 2 [0x40, 0xE0], .tx 0xE0,
          .pin .cs true] := by decide

/-- FlushTwiceEmitsTheSameEvents: the host hands over SETROT 1, INIT 1 (held for one step) and DCMODE 0 between the flushes. -/
theorem witness_flush_twice :
    let s := { smallExternal with
      commands := [⟨0x1400000000000000, []⟩, ⟨0x9200000000000000, []⟩, ⟨0x4000000000000000, []⟩]
      busyFeed := [false, true, false, false] }
    s.wf ∧ ∃ t u, exec .flush s = .next t
      ∧ (∀ cmd ∈ t.commands, ∀ i, decode cmd = .ok i → i.opcode ∉ [Opcode.hline, .vline])
      ∧ Sys2Proof.core.run 4 t = .next u := by
  refine ⟨by decide, _, _, rfl, ?_, rfl⟩
  intro cmd hc i hi
  have hc : cmd = ⟨0x1400000000000000, []⟩ ∨ cmd = ⟨0x9200000000000000, []⟩ ∨ cmd = ⟨0x4000000000000000, []⟩ := by
    have h : cmd ∈ [(⟨0x1400000000000000, []⟩ : Command), ⟨0x9200000000000000, []⟩, ⟨0x4000000000000000, []⟩] := hc
    simpa using h
  rcases hc with rfl | rfl | rfl
  · have h : decode ⟨0x1400000000000000, []⟩ = .ok (.setrot .deg90) := by decide
    rw [h] at hi; cases hi; decide
  · have h : decode ⟨0x9200000000000000, []⟩ = .ok (.init true) := by decide
    rw [h] at hi; cases hi; decide
  · have h : decode ⟨0x4000000000000000, []⟩ = .ok (.dcmode false) := by decide
    rw [h] at hi; cases hi; decide

/-- InitConfiguresAndPulses (both clauses), and the three clauses of InitHoldsUntilBusyIsReleased. -/
theorem witness_init :
    State.reset.busy = false ∧ { State.reset with busy := true }.busy = true
      ∧ { State.reset with phase := .initWait, busyFeed := [false] }.cfg.wf = true
      ∧ { State.reset with phase := .initWait, busyFeed := [false] }.phase = .initWait
      ∧ { State.reset with phase := .initWait, busy := true, busyFeed := [true] }.busy = true
      ∧ ∀ level ∈ { State.reset with phase := .initWait, busy := true, busyFeed := [true] }.busyFeed, level = true := by decide

end Sys2Proof.Tests
end

section
/-! Proofs: one step of the machine by its phase (spec 00_scope.md R9, 43_lifecycle.md R188). -/

namespace Sys2Proof.Machine

/-! ## A step, by what the block is doing -/

/-- Parameters within R6: the panel moves, then the block accepts. -/
theorem fetch_of_wf {s : State} (hw : s.cfg.wf = true) : fetch s = accept (panelMove s) := by
  simp [fetch, hw]

/-- An idle block runs the command at the head of the host's list (R9, R87). -/
theorem step_of_decode {s : State} {cmd : Command} {rest : List Command} {i : Instr} (hw : s.cfg.wf = true)
    (hp : s.phase = .idle) (hq : s.commands = cmd :: rest) (hd : decode cmd = .ok i) :
    step s = exec i ((panelMove s).setCommands rest) := by
  simp [step, fetch_of_wf hw, accept, hp, hq, hd]

/-- A holding INIT samples BUSY once the panel has moved (R188). -/
theorem step_of_initWait {s : State} (hw : s.cfg.wf = true) (hp : s.phase = .initWait) :
    step s = .next (busyWait (panelMove s)) := by
  simp [step, fetch_of_wf hw, accept, hp]

/-- Settles O7: `step_of_decode`, with the panel's move written out. -/
theorem stepRunsTheDecodedInstruction : Obligations.StepRunsTheDecodedInstruction := by
  intro s cmd rest i hw hp hq hd
  rw [step_of_decode hw hp hq hd, panelMove_eq, State.setCommands]

/-! ## INIT's wait -/

/-- INIT holds when BUSY is asserted at the step that accepts it, with or without the pulse. -/
theorem execInit_holds (rp : Bool) {s : State} (hb : s.busy = true) :
    ∃ t, exec (.init rp) s = .next t ∧ t.phase = .initWait ∧ t.commands = s.commands := by
  refine ⟨_, rfl, ?_⟩
  cases rp with
  | false => simp [busyWait_eq, hb]
  | true => simp [busyWait_eq, resetPulse_eq, hb]

/-- One step of a holding INIT as a whole: only the BUSY inputs and the phase move. -/
theorem step_initWait_eq {s : State} (hw : s.cfg.wf = true) (hp : s.phase = .initWait) :
    step s = .next { s with
      busy := s.busyFeed.headD s.busy, busyFeed := s.busyFeed.tail,
      phase := if s.busyFeed.headD s.busy = true then .initWait else .idle } := by
  rw [step_of_initWait hw hp, busyWait_eq, panelMove_eq]

/-- A panel that has BUSY asserted and never drives it low goes on asserting it. -/
theorem headD_of_all_asserted {feed : List Level} {busy : Level} (hb : busy = true)
    (hf : ∀ level ∈ feed, level = true) : feed.headD busy = true := by
  cases feed with
  | nil => exact hb
  | cons level rest => exact hf level List.mem_cons_self

/-- While the panel keeps BUSY asserted, a step of a holding INIT uses up one level of the feed and changes nothing else. -/
theorem step_initWait_asserted {s : State} (hw : s.cfg.wf = true) (hp : s.phase = .initWait) (hb : s.busy = true)
    (hf : ∀ level ∈ s.busyFeed, level = true) : step s = .next { s with busyFeed := s.busyFeed.tail } := by
  rw [step_initWait_eq hw hp, headD_of_all_asserted hb hf, if_pos rfl, ← hb, ← hp]

/-- The hold lasts for any number of steps (D22: there is no timeout), by induction on the steps: each leaves a holding INIT whose
feed is again asserted throughout. -/
theorem run_initWait_asserted (n : Nat) {s : State} (hw : s.cfg.wf = true) (hp : s.phase = .initWait) (hb : s.busy = true)
    (hf : ∀ level ∈ s.busyFeed, level = true) :
    Sys2Proof.core.run n s = .next { s with busyFeed := s.busyFeed.drop n } := by
  induction n generalizing s with
  | zero => rfl
  | succ n ih =>
    have htail : ∀ level ∈ s.busyFeed.tail, level = true := fun level h => hf level (List.mem_of_mem_tail h)
    have hrest := ih (s := { s with busyFeed := s.busyFeed.tail }) hw hp hb htail
    rw [run_succ_of_next n (step_initWait_asserted hw hp hb hf), hrest, List.drop_tail]

/-- Settles O58: the hold at acceptance, the sample of each step, and the unbounded hold. -/
theorem initHoldsUntilBusyIsReleased : Obligations.InitHoldsUntilBusyIsReleased :=
  ⟨fun rp _ hb => execInit_holds rp hb, fun _ hw hp => step_initWait_eq hw hp,
    fun n _ hw hp hb hf => run_initWait_asserted n hw hp hb hf⟩

end Sys2Proof.Machine
end

section
/-! Proofs: what every step keeps, and which operations write each piece of state (spec 10_state.md). -/

namespace Sys2Proof.Machine

/-! ## An invariant of every step -/

/-- A step moves the panel, and then waits, samples INIT's wait, or takes a command off the list and runs it. So a property of the
state is kept by every step when each of these four moves keeps it. -/
theorem step_keeps {P : State → Prop} (hpanel : ∀ s, P s → P (panelMove s)) (hwait : ∀ s, P s → P (busyWait s))
    (htake : ∀ s rest, P s → P (s.setCommands rest)) (hexec : ∀ i s t, P s → exec i s = .next t → P t)
    {s t : State} (hs : P s) (h : step s = .next t) : P t := by
  have hmoved := hpanel s hs
  rcases step_cases s with ⟨r, hr⟩ | ⟨u, hu, hcase⟩ | ⟨i, _, rest, -, -, -, -, hrun⟩
  · rw [hr] at h
    cases h
  · rw [hu] at h
    cases h
    rcases hcase with rfl | ⟨rfl, -⟩
    · exact hmoved
    · exact hwait _ hmoved
  · exact hexec i _ t (htake _ rest hmoved) (hrun ▸ h)

/-- Settles O10: `exec_wf` for the operations; the other moves of a step touch the inputs and the phase only. -/
theorem stepKeepsStateWellFormed : Obligations.StepKeepsStateWellFormed := by
  intro s t hs h
  refine step_keeps (P := State.wf) (fun _ => panelMove_wf) (fun _ hu => hu) (fun _ _ hu => hu) ?_ hs h
  intro i u v hu hv
  rcases exec_wf i hu with ⟨r, hr⟩ | ⟨w, hw, hwf⟩
  · rw [hr] at hv
    cases hv
  · rw [hw] at hv
    cases hv
    exact hwf

/-- The record of the three latches, one statement for any pin (R34). -/
theorem State.pinsRecorded_iff (s : State) : s.pinsRecorded ↔ ∀ p, levelAfter p true s.trace = s.latch p := by
  constructor
  · rintro ⟨hcs, hdc, hrst⟩ p
    cases p with
    | cs => exact hcs
    | dc => exact hdc
    | rst => exact hrst
  · exact fun h => ⟨h .cs, h .dc, h .rst⟩

/-- An operation moves the latches as the events it appends say (D24). -/
theorem exec_keeps_pinsRecorded {i : Instr} {s t : State} (hs : s.pinsRecorded) (h : exec i s = .next t) :
    t.pinsRecorded := by
  obtain ⟨es, htrace, hlatch, -⟩ := exec_trace h
  rw [State.pinsRecorded_iff] at hs ⊢
  intro p
  rw [htrace, levelAfter_append, hs p, hlatch p]

/-- Settles O13: `exec_keeps_pinsRecorded` for the operations; the other moves of a step touch neither latch nor trace. -/
theorem stepKeepsPinsRecorded : Obligations.StepKeepsPinsRecorded := by
  intro s t hs h
  refine step_keeps (P := State.pinsRecorded) ?_ (fun _ hu => hu) (fun _ _ hu => hu)
    (fun _ _ _ => exec_keeps_pinsRecorded) hs h
  intro u hu
  rw [panelMove_eq]
  exact hu

/-! ## The frame of each operation that completes -/

/-- The gate of R157 lets a next state through only with IOEN set. -/
theorem whenConfigured_eq_next {s t : State} {k : State → Out} :
    whenConfigured s k = .next t ↔ s.ioen = true ∧ k s = .next t := by
  cases hi : s.ioen with
  | true => simp [whenConfigured_of_ioen hi]
  | false => simp [whenConfigured_of_not hi]

/-- A run behind the colour gate of R111, dropped or drawn, changes the store and the trace only. -/
theorem gatedRun_frame {c : Colour} {acc : List Access} {s t : State}
    (h : (if highlightDropped s.cfg c then .next s else applyAccesses c acc s : Out) = .next t) : SameButStore s t := by
  split_ifs at h
  · cases h
    rfl
  · exact (applyAccesses_frame h).1

theorem execHline_frame {x y w : Int} {c : Colour} {s t : State} (h : execHline x y w c s = .next t) : SameButStore s t :=
  gatedRun_frame h

theorem execVline_frame {x y w : Int} {c : Colour} {s t : State} (h : execVline x y w c s = .next t) : SameButStore s t :=
  gatedRun_frame h

theorem execDcmode_next {m : Level} {s t : State} (h : execDcmode m s = .next t) :
    t = { s with dc := m, trace := s.trace ++ [.pin .dc m] } := by
  obtain ⟨-, hrun⟩ := whenConfigured_eq_next.1 h
  cases hrun
  rfl

theorem execSendcmd_next {code : Byte} {ar : Bool} {s t : State} (h : execSendcmd code ar s = .next t) :
    t = if ar then pin .cs true (commandByte code s) else commandByte code s := by
  obtain ⟨-, hrun⟩ := whenConfigured_eq_next.1 h
  cases hrun
  rfl

/-- SENDCMDDATA, when it completes: the opened frame, the payload, the release (R154). -/
theorem execSendcmddata_next {code : Byte} {n : Nat} {bytes : List Byte} {s t : State}
    (h : execSendcmddata code n bytes s = .next t) :
    t = { s with
      cs := true, dc := true
      trace := s.trace ++ ([.pin .cs false, .pin .dc false, .tx code, .pin .dc true] ++ bytes.map .tx ++ [.pin .cs true]) } := by
  unfold execSendcmddata at h
  split_ifs at h
  obtain ⟨-, hrun⟩ := whenConfigured_eq_next.1 h
  cases hrun
  rw [sendAndRelease_eq, openDataFrame_eq]
  simp only [List.append_assoc]

/-- SENDDATA, when it completes: the payload, the release (R156). -/
theorem execSenddata_next {n : Nat} {bytes : List Byte} {s t : State} (h : execSenddata n bytes s = .next t) :
    t = { s with cs := true, trace := s.trace ++ (bytes.map .tx ++ [.pin .cs true]) } := by
  unfold execSenddata at h
  split_ifs at h
  obtain ⟨-, hrun⟩ := whenConfigured_eq_next.1 h
  cases hrun
  rw [sendAndRelease_eq, List.append_assoc]

/-- A flush that completes, of one plane or two, moves CS, DC, PAGEBUF and the trace only (R170). -/
theorem execFlush_frame {s t : State} (h : execFlush s = .next t) : SameButFlush s t := by
  obtain ⟨-, hrun⟩ := whenConfigured_eq_next.1 h
  obtain ⟨u, hbw, hrest⟩ := andThen_eq_next.1 hrun
  obtain ⟨buf, data, rfl, -⟩ := planePass_frame hbw
  split at hrest
  · cases hrest
    rfl
  · obtain ⟨buf', data', rfl, -⟩ := planePass_frame hrest
    rfl

/-- INIT writes RST in its pulse only, IOEN and the phase always, and nothing else but the trace (R185, R186, R188). -/
theorem execInit_next {rp : Bool} {s t : State} (h : execInit rp s = .next t) :
    t = { s with
      ioen := true
      rst := if rp then true else s.rst
      phase := if s.busy then .initWait else .idle
      trace := s.trace ++ if rp then [.pin .rst true, .delay 1, .pin .rst false, .delay 10, .pin .rst true] else [] } := by
  cases h
  cases rp with
  | false => simp [busyWait_eq, State.setIoen]
  | true => simp [busyWait_eq, resetPulse_eq, State.setIoen]

/-- Settles O15: the frame of the operation at hand, read field by field. -/
theorem eachPieceIsWrittenOnlyByItsOperations : Obligations.EachPieceIsWrittenOnlyByItsOperations := by
  intro i s t h
  have grows : ∃ es, t.trace = s.trace ++ es := by
    obtain ⟨es, htrace, -⟩ := exec_trace h
    exact ⟨es, htrace⟩
  cases i with
  | setrot r => cases h; simp [Instr.opcode]
  | hline x y w c => rw [execHline_frame h]; simp [Instr.opcode, grows]
  | vline x y n c => rw [execVline_frame h]; simp [Instr.opcode, grows]
  | dcmode m => rw [execDcmode_next h]; simp [Instr.opcode]
  | sendcmd code ar =>
    rw [execSendcmd_next h, commandByte_eq]
    cases ar with
    | false => simp [Instr.opcode]
    | true => simp [Instr.opcode, pin]
  | sendcmddata code n bytes => rw [execSendcmddata_next h]; simp [Instr.opcode]
  | senddata n bytes => rw [execSenddata_next h]; simp [Instr.opcode]
  | flush => rw [execFlush_frame h]; simp [Instr.opcode, grows]
  | init rp => rw [execInit_next h]; simp +contextual [Instr.opcode]

end Sys2Proof.Machine
end

section
/-! Proofs: what the operations do not read. Changing BUSY, ROT or IOEN commutes with every operation that does not look at it
(spec 10_state.md R24, R28, R29). -/

namespace Sys2Proof.Machine

/-! ## Outcomes with a changed next state -/

/-- The outcome with the next state, if there is one, changed by `g`. -/
def mapNext (g : State → State) (o : Out) : Out := andThen o fun t => .next (g t)

@[simp] theorem mapNext_next (g : State → State) (t : State) : mapNext g (.next t) = .next (g t) := rfl
@[simp] theorem mapNext_fault (g : State → State) (f : Fault) : mapNext g (.fault f) = .fault f := rfl
@[simp] theorem mapNext_refused (g : State → State) (r : Refusal) : mapNext g (.refused r) = .refused r := rfl

/-- A change that commutes with the second operation of a sequence passes through the sequence. -/
theorem andThen_mapNext {g : State → State} {k : State → Out} (hk : ∀ u, k (g u) = mapNext g (k u)) (o : Out) :
    andThen (mapNext g o) k = mapNext g (andThen o k) := by
  cases o with
  | next u => exact hk u
  | fault f => rfl
  | refused r => rfl

/-- A change that passes through an operation changes neither completion nor the reason of a refusal. -/
theorem unseen_of_mapNext {g : State → State} {i : Instr} {s : State} (h : exec i (g s) = mapNext g (exec i s)) :
    (∀ t, exec i s = .next t → exec i (g s) = .next (g t)) ∧ ∀ r, exec i s = .refused r → exec i (g s) = .refused r := by
  rw [h]
  exact ⟨fun t ht => by rw [ht, mapNext_next], fun r hr => by rw [hr, mapNext_refused]⟩

/-! ## Changes that the shared operations do not see -/

/-- The change `g` leaves what the shared operations read (the parameters, the store, PAGEBUF) and commutes with what they write. -/
structure Unseen (g : State → State) : Prop where
  cfg : ∀ s, (g s).cfg = s.cfg
  fb : ∀ s, (g s).fb = s.fb
  xm : ∀ s, (g s).xm = s.xm
  pagebuf : ∀ s, (g s).pagebuf = s.pagebuf
  setFb : ∀ s l, (g s).setFb l = g (s.setFb l)
  setXm : ∀ s m, (g s).setXm m = g (s.setXm m)
  setPagebuf : ∀ s l, (g s).setPagebuf l = g (s.setPagebuf l)
  emit : ∀ s es, (g s).emit es = g (s.emit es)
  setLatch : ∀ s p v, (g s).setLatch p v = g (s.setLatch p v)

/-- No shared operation reads ROT, IOEN or BUSY, or writes them. -/
theorem unseen_fields (frot : Rotation → Rotation) (fioen : Bool → Bool) (fbusy : Level → Level) :
    Unseen fun s => { s with rot := frot s.rot, ioen := fioen s.ioen, busy := fbusy s.busy } where
  cfg _ := rfl
  fb _ := rfl
  xm _ := rfl
  pagebuf _ := rfl
  setFb _ _ := rfl
  setXm _ _ := rfl
  setPagebuf _ _ := rfl
  emit _ _ := rfl
  setLatch _ p _ := by cases p <;> rfl

theorem unseen_busy (level : Level) : Unseen fun s => { s with busy := level } := unseen_fields id id fun _ => level
theorem unseen_rot (r : Rotation) : Unseen fun s => { s with rot := r } := unseen_fields (fun _ => r) id id
theorem unseen_ioen (v : Bool) : Unseen fun s => { s with ioen := v } := unseen_fields id (fun _ => v) id

section
variable {g : State → State}

/-! ### Draws -/

theorem Unseen.updateWord (hg : Unseen g) (a : Nat) (f : Word → Word) (s : State) :
    updateWord a f (g s) = mapNext g (updateWord a f s) := by
  by_cases ha : a < s.cfg.words
  · cases hs : s.cfg.store with
    | resident =>
      cases hv : s.fb[a]? with
      | none => simp [Machine.updateWord, fbRead, hg.cfg, hg.fb, ha, hs, hv]
      | some v =>
        obtain ⟨hlt, -⟩ := List.getElem?_eq_some_iff.1 hv
        simp [Machine.updateWord, fbRead, fbWrite, hg.cfg, hg.fb, hg.setFb, ha, hs, hlt]
    | external =>
      simp [Machine.updateWord, fbRead, fbWrite, xmRead16, xmWrite16, hg.cfg, hg.xm, hg.setXm, hg.emit, ha, hs]
  · simp [Machine.updateWord, fbRead, hg.cfg, ha]

theorem Unseen.applyAccesses (hg : Unseen g) (c : Colour) (acc : List Access) (s : State) :
    applyAccesses c acc (g s) = mapNext g (applyAccesses c acc s) := by
  induction acc generalizing s with
  | nil => rfl
  | cons x rest ih =>
    simp only [Machine.applyAccesses]
    rw [hg.updateWord, andThen_mapNext ih]

/-- A run behind the colour gate (R111). -/
theorem Unseen.gatedRun (hg : Unseen g) (c : Colour) (acc : List Access) (s : State) :
    (if highlightDropped s.cfg c then .next (g s) else Machine.applyAccesses c acc (g s) : Out)
      = mapNext g (if highlightDropped s.cfg c then .next s else Machine.applyAccesses c acc s) := by
  split
  · rfl
  · exact hg.applyAccesses c acc s

/-- HLINE and VLINE read ROT and no latch, IOEN or input (R112, R113). -/
theorem Unseen.exec_draw (hg : Unseen g) (hrot : ∀ s, (g s).rot = s.rot) {i : Instr}
    (hi : i.opcode ∈ [Opcode.hline, Opcode.vline]) (s : State) : exec i (g s) = mapNext g (exec i s) := by
  cases i with
  | hline x y w c =>
    simp only [exec, execHline, hg.cfg, hrot]
    exact hg.gatedRun c _ s
  | vline x y n c =>
    simp only [exec, execVline, hg.cfg, hrot]
    exact hg.gatedRun c _ s
  | _ => simp [Instr.opcode] at hi

/-! ### Frames and the flush -/

theorem Unseen.pin (hg : Unseen g) (p : Pin) (v : Level) (s : State) : pin p v (g s) = g (pin p v s) := by
  simp only [Machine.pin, hg.setLatch, hg.emit]

theorem Unseen.txAll (hg : Unseen g) (bs : List Byte) (s : State) : txAll bs (g s) = g (txAll bs s) := hg.emit s _

theorem Unseen.commandByte (hg : Unseen g) (code : Byte) (s : State) : commandByte code (g s) = g (commandByte code s) := by
  simp only [Machine.commandByte, tx, hg.pin, hg.emit]

theorem Unseen.openDataFrame (hg : Unseen g) (code : Byte) (s : State) :
    openDataFrame code (g s) = g (openDataFrame code s) := by
  simp only [Machine.openDataFrame, hg.commandByte, hg.pin]

theorem Unseen.sendAndRelease (hg : Unseen g) (bs : List Byte) (s : State) :
    sendAndRelease bs (g s) = g (sendAndRelease bs s) := by
  simp only [Machine.sendAndRelease, hg.txAll, hg.pin]

theorem Unseen.streamChunk (hg : Unseen g) (p : Plane) (off n : Nat) (s : State) :
    streamChunk p off n (g s) = g (streamChunk p off n s) := by
  simp only [Machine.streamChunk, xmRead, hg.cfg, hg.xm, hg.pagebuf, hg.emit, hg.setPagebuf, hg.txAll]

theorem Unseen.streamPages (hg : Unseen g) (p : Plane) (fuel off : Nat) (s : State) :
    streamPages p fuel off (g s) = g (streamPages p fuel off s) := by
  induction fuel generalizing off s with
  | zero => rfl
  | succ fuel ih =>
    simp only [Machine.streamPages, hg.cfg, hg.streamChunk, ih]
    split <;> rfl

theorem Unseen.streamPlane (hg : Unseen g) (p : Plane) (s : State) :
    streamPlane p (g s) = mapNext g (streamPlane p s) := by
  cases hs : s.cfg.store with
  | resident =>
    simp only [Machine.streamPlane, hg.cfg, hg.fb, hs, hg.txAll]
    split <;> rfl
  | external =>
    simp only [Machine.streamPlane, hg.cfg, hs, hg.streamPages]
    split <;> rfl

theorem Unseen.planePass (hg : Unseen g) (cmd : Byte) (p : Plane) (s : State) :
    planePass cmd p (g s) = mapNext g (planePass cmd p s) := by
  simp only [Machine.planePass, hg.openDataFrame, hg.streamPlane]
  exact andThen_mapNext (fun u => by rw [hg.pin, mapNext_next]) _

/-- The gate of R157 looks at IOEN only. -/
theorem whenConfigured_mapNext (hioen : ∀ s, (g s).ioen = s.ioen) {k : State → Out} (hk : ∀ u, k (g u) = mapNext g (k u))
    (s : State) : whenConfigured (g s) k = mapNext g (whenConfigured s k) := by
  simp only [whenConfigured, hioen]
  split
  · exact hk s
  · rfl

theorem Unseen.execFlush (hg : Unseen g) (hioen : ∀ s, (g s).ioen = s.ioen) (s : State) :
    execFlush (g s) = mapNext g (execFlush s) := by
  refine whenConfigured_mapNext hioen (fun u => ?_) s
  simp only [hg.cfg, hg.planePass]
  refine andThen_mapNext (fun v => ?_) _
  simp only [hg.cfg]
  split
  · rfl
  · exact hg.planePass _ _ v

/-- The framer operations and FLUSH read IOEN, and neither ROT nor an input (R158, R170). -/
theorem Unseen.exec_bus (hg : Unseen g) (hioen : ∀ s, (g s).ioen = s.ioen) {i : Instr}
    (hi : i.opcode ∉ [Opcode.setrot, Opcode.hline, Opcode.vline, Opcode.init]) (s : State) :
    exec i (g s) = mapNext g (exec i s) := by
  cases i with
  | dcmode m =>
    simp only [exec, execDcmode]
    exact whenConfigured_mapNext hioen (fun u => by rw [hg.pin, mapNext_next]) s
  | sendcmd code ar =>
    simp only [exec, execSendcmd]
    refine whenConfigured_mapNext hioen (fun u => ?_) s
    rw [hg.commandByte, hg.pin, mapNext_next]
    split <;> rfl
  | sendcmddata code n bytes =>
    simp only [exec, execSendcmddata]
    split
    · exact whenConfigured_mapNext hioen (fun u => by rw [hg.openDataFrame, hg.sendAndRelease, mapNext_next]) s
    · rfl
  | senddata n bytes =>
    simp only [exec, execSenddata]
    split
    · exact whenConfigured_mapNext hioen (fun u => by rw [hg.sendAndRelease, mapNext_next]) s
    · rfl
  | flush => exact hg.execFlush hioen s
  | _ => simp [Instr.opcode] at hi

end

/-! ## BUSY, ROT and IOEN -/

/-- Settles O18: SETROT writes ROT, the draws and the bus operations do not see a change of BUSY. -/
theorem busyIsReadOnlyByInit : Obligations.BusyIsReadOnlyByInit := by
  intro i s level hi
  refine unseen_of_mapNext (g := fun u => { u with busy := level }) ?_
  by_cases hrot : i.opcode = .setrot
  · cases i with
    | setrot r => rfl
    | _ => cases hrot
  by_cases hdraw : i.opcode ∈ [Opcode.hline, Opcode.vline]
  · exact (unseen_busy level).exec_draw (fun _ => rfl) hdraw s
  · exact (unseen_busy level).exec_bus (fun _ => rfl) (by simpa [hrot, hi] using hdraw) s

/-- Settles O19: the bus operations do not see a change of ROT, and INIT passes it on. -/
theorem rotationIsReadOnlyByDraws : Obligations.RotationIsReadOnlyByDraws := by
  intro i s r hi
  refine unseen_of_mapNext (g := fun u => { u with rot := r }) ?_
  by_cases hinit : i.opcode = .init
  · cases i with
    | init rp => cases rp <;> rfl
    | _ => cases hinit
  · exact (unseen_rot r).exec_bus (fun _ => rfl) (by simpa [hinit] using hi) s

/-- IOEN once set stays set: an operation that leaves it 0 found it 0 (R29). -/
theorem exec_keeps_ioen {i : Instr} {s t : State} (hs : s.ioen = true) (h : exec i s = .next t) : t.ioen = true := by
  obtain ⟨-, -, -, -, hclear⟩ := exec_trace h
  by_contra ht
  obtain ⟨hs', -⟩ := hclear (by simpa using ht)
  simp [hs] at hs'

/-- The gate of R157, for each operation it stands before; a payload of the counted length is not refused for its length first. -/
theorem exec_refused_of_not_ioen {i : Instr} {s : State} (hi : needsIo i = true) (hp : payloadFits i = true)
    (hs : s.ioen = false) : exec i s = .refused .ioNotConfigured := by
  cases i with
  | dcmode m => simp only [exec, execDcmode, whenConfigured_of_not hs]
  | sendcmd code ar => simp only [exec, execSendcmd, whenConfigured_of_not hs]
  | sendcmddata code n bytes => exact (if_pos hp).trans (whenConfigured_of_not hs _)
  | senddata n bytes => exact (if_pos hp).trans (whenConfigured_of_not hs _)
  | flush => simp only [exec, execFlush, whenConfigured_of_not hs]
  | _ => simp [needsIo] at hi

/-- R91: a well-formed operation carries a payload of the counted length. -/
theorem payloadFits_of_wf {i : Instr} (h : i.wf = true) : payloadFits i = true := by
  cases i with
  | sendcmddata code n bytes => simpa [payloadFits, hasLength_iff, payloadIs] using (Bool.and_eq_true_iff.1 h).2
  | senddata n bytes => simpa [payloadFits, hasLength_iff, payloadIs] using (Bool.and_eq_true_iff.1 h).2
  | _ => rfl

/-- R224: the operations behind the gate, by opcode. -/
theorem needsIo_iff (i : Instr) :
    needsIo i = true ↔ i.opcode ∈ [Opcode.dcmode, Opcode.sendcmd, Opcode.sendcmddata, Opcode.senddata, Opcode.flush] := by
  cases i <;> simp [needsIo, Instr.opcode]

/-- SETROT and the draws do not see a change of IOEN. -/
theorem exec_mapNext_ioen {i : Instr} (hi : i.opcode ∈ [Opcode.setrot, Opcode.hline, Opcode.vline]) (s : State) (v : Bool) :
    exec i { s with ioen := v } = mapNext (fun u => { u with ioen := v }) (exec i s) := by
  rcases List.mem_cons.1 hi with hrot | hdraw
  · cases i with
    | setrot r => rfl
    | _ => cases hrot
  · exact (unseen_ioen v).exec_draw (fun _ => rfl) hdraw s

/-- Settles O16, clause by clause. -/
theorem ioenIsSetByInitAndNeverCleared : Obligations.IoenIsSetByInitAndNeverCleared := by
  refine ⟨rfl, fun rp s => ?_, fun s t => ?_, fun i s hwf hi hs => ?_, fun i s t v hi h => ?_⟩
  · exact ⟨_, rfl, by rw [execInit_next (rp := rp) (s := s) rfl]⟩
  · exact step_keeps (P := fun u => u.ioen = true) (fun u hu => by rw [panelMove_ioen, hu]) (fun _ hu => hu)
      (fun _ _ hu => hu) (fun _ _ _ => exec_keeps_ioen)
  · exact exec_refused_of_not_ioen ((needsIo_iff i).2 hi) (payloadFits_of_wf hwf) hs
  · rw [exec_mapNext_ioen hi, h, mapNext_next]

end Sys2Proof.Machine
end

section
/-! Proofs: the bytes the panel sees of the framer's data frames (10_state.md R32, R34), the events of an external flush (R33,
42_flush.md R174), and the state after reset (R37). -/

namespace Sys2Proof.Machine

/-! ## What the panel sees of a frame -/

/-- Transfers go out under the levels they find. -/
theorem sentBytes_txs (cs dc : Level) (bytes : List Byte) (rest : List Event) :
    sentBytes cs dc (bytes.map .tx ++ rest)
      = bytes.map (fun b => { cs := cs, dc := dc, byte := b }) ++ sentBytes cs dc rest := by
  induction bytes with
  | nil => rfl
  | cons b bs ih => simp [sentBytes, ih]

theorem newEvents_of_append {s t : State} {es : List Event} (h : t.trace = s.trace ++ es) : newEvents s t = es := by
  rw [newEvents, h, List.drop_left]

/-- Settles O51: the events of the two frames, read by the panel. -/
theorem panelSeesTheFrames : Obligations.PanelSeesTheFrames := by
  refine fun code bytes s t _ => ⟨fun h => ?_, fun h => ?_⟩
  · rw [newEvents_of_append (congrArg State.trace (execSendcmddata_next h))]
    simp [sentBytes, sentBytes_txs]
  · rw [newEvents_of_append (congrArg State.trace (execSenddata_next h))]
    simp [sentBytes, sentBytes_txs]

/-! ## The flush of an external framebuffer -/

theorem Config.pageOk_of_wf {cfg : Config} (h : cfg.wf = true) (hs : cfg.store = .external) : cfg.pageOk = true := by
  simp only [Config.wf, hs, Bool.and_eq_true] at h
  exact h.2

/-- R6: a panel has at least one pixel, so at least one word. -/
theorem Config.words_pos {cfg : Config} (h : cfg.wf = true) : 0 < cfg.words := by
  simp only [Config.wf, Bool.and_eq_true, decide_eq_true_eq] at h
  obtain ⟨⟨⟨⟨hw, -⟩, hh⟩, -⟩, -⟩ := h
  exact Nat.mul_pos (by omega) hw

/-- PAGEBUF after one pass of an external flush: the last chunk, and behind it the chunk before it or, with one chunk only, what
there was (R174, D17). -/
theorem planeBuffer_getElem? {s : State} (h : s.wf) (hs : s.cfg.store = .external) {j : Nat} (hj : j < s.cfg.pageBytes) :
    (planeBuffer s)[j]? =
      if j < chunkLength s.cfg (chunkCount s.cfg - 1) then some (s.xm.read (chunkBase s.cfg (chunkCount s.cfg - 1) + j))
      else if chunkCount s.cfg = 1 then s.pagebuf[j]?
      else some (s.xm.read (chunkBase s.cfg (chunkCount s.cfg - 2) + j)) := by
  obtain ⟨hcfg, -⟩ := h
  have hpage : 2 ≤ s.cfg.pageBytes := by
    have := Config.pageOk_of_wf hcfg hs
    simp only [Config.pageOk, Bool.and_eq_true, decide_eq_true_eq] at this
    exact this.1
  have hcount : 0 < chunkCount s.cfg := by
    have := Config.words_pos hcfg
    rw [lt_chunkCount_iff hpage]
    omega
  have hloop := pagesBuffer_getElem? hpage s.xm (2 * s.cfg.words) 0 s.pagebuf (by omega) hcount j hj
  simpa only [planeBuffer, hs, Nat.zero_mul, Nat.zero_add] using hloop

/-- The second pass leaves PAGEBUF as the first one did: it reads the same chunks (R172, R174). -/
theorem planeBuffer_planeBuffer {s : State} (h : s.wf) (hs : s.cfg.store = .external) :
    planeBuffer { s with pagebuf := planeBuffer s } = planeBuffer s := by
  have hlen := planeBuffer_length h hs
  have hwf : State.wf { s with pagebuf := planeBuffer s } := planePass_wf h []
  have hlen' := planeBuffer_length hwf hs
  refine List.ext_getElem? fun j => ?_
  by_cases hj : j < s.cfg.pageBytes
  · rw [planeBuffer_getElem? hwf hs hj, planeBuffer_getElem? h hs hj]
    split_ifs <;> rfl
  · rw [List.getElem?_eq_none (by simp only [hlen']; omega), List.getElem?_eq_none (by omega)]

/-- Settles O54: `execFlush_eq` with the events of an external pass, and PAGEBUF the same after one pass or two. -/
theorem externalFlushEvents : Obligations.ExternalFlushEvents := by
  intro s h hi hs
  refine ⟨planeBuffer s, ?_, planeBuffer_length h hs, fun j hj => planeBuffer_getElem? h hs hj⟩
  change execFlush s = _
  rw [execFlush_eq h hi, planeBuffer_planeBuffer h hs]
  simp only [planeEvents_external h hs, List.append_assoc]
  cases s.cfg.cmdHl <;> rfl

/-! ## The state after reset -/

/-- Reset keeps the shape it is given; its trace is empty, so the latches agree with it and it is quiet (R37, R221). -/
theorem resetWith_wf {cfg : Config} {fb : List Word} {page : List Byte} {xm : Memory} (busy : Level) (feed : List Level)
    (commands : List Command) (hcfg : cfg.wf = true) (hxm : xm.wf)
    (hr : cfg.store = .resident → fb.length = cfg.words ∧ page = [] ∧ xm.cells = [])
    (he : cfg.store = .external → fb = [] ∧ page.length = cfg.pageBytes) :
    let s := State.resetWith cfg fb page xm busy feed commands
    s.wf ∧ s.pinsRecorded ∧ s.quietBeforeInit :=
  ⟨⟨hcfg, hxm, hr, he⟩, ⟨rfl, rfl, rfl⟩, fun _ => ⟨rfl, nofun⟩⟩

/-- Settles O11: `State.reset` is the reset state of a resident panel whose framebuffer has one value for each word. -/
theorem resetStatesAreWellFormed : Obligations.ResetStatesAreWellFormed := by
  refine ⟨?_, fun _ _ _ _ busy feed commands => resetWith_wf busy feed commands⟩
  have hfb : ((List.range Config.atReset.words).map Config.powerUpWord).length = Config.atReset.words := by simp
  have hxm : ({ fill := Config.powerUpFill, cells := [] } : Memory).wf := ⟨List.Pairwise.nil, nofun⟩
  exact (resetWith_wf false [] [] rfl hxm (fun _ => ⟨hfb, rfl, rfl⟩) nofun).1

/-- Settles O59: every field of a reset state is written out in `State.resetWith`. -/
theorem resetValues : Obligations.ResetValues :=
  ⟨fun _ _ _ _ _ _ _ => ⟨rfl, rfl, rfl, rfl, rfl, rfl, rfl, rfl, rfl, rfl, rfl, rfl, rfl, rfl⟩,
    ⟨_, _, _, _, _, _, _, rfl⟩⟩

end Sys2Proof.Machine
end

section
/-! Proofs: the framebuffer store, a word at a time, and the word accesses of a draw (spec 20_memory.md, 40_geometry.md R134). -/

namespace Sys2Proof.Machine

/-- Settles O12: a step is refused, waits, or runs an operation in a well-formed state, and there no operation faults (`exec_wf`). -/
theorem stepNeverFaults : Obligations.StepNeverFaults := by
  intro s f hs hfault
  rcases step_cases s with ⟨r, hr⟩ | ⟨t, ht, -⟩ | ⟨i, _, rest, -, -, -, -, hrun⟩
  · simp [hr] at hfault
  · simp [ht] at hfault
  · have hmoved : ((panelMove s).setCommands rest).wf := panelMove_wf hs
    rcases exec_wf i hmoved with ⟨r, hr⟩ | ⟨t, ht, -⟩
    · simp [hrun, hr] at hfault
    · simp [hrun, ht] at hfault

/-! ## Words of the store -/

theorem State.wf.fb_length {s : State} (h : s.wf) (hs : s.cfg.store = .resident) : s.fb.length = s.cfg.words := by
  obtain ⟨-, -, hresident, -⟩ := h
  exact (hresident hs).1

theorem State.wf.xm_wf {s : State} (h : s.wf) : s.xm.wf := by
  obtain ⟨-, hxm, -⟩ := h
  exact hxm

/-- `FbRead` of a resident word has no effect (R52). -/
theorem fbRead_resident {s : State} (hs : s.cfg.store = .resident) {a : Nat} (ha : a < s.cfg.words) {v : Word}
    (hv : s.fb[a]? = some v) : fbRead a s = .ok (v, s) := by
  simp [fbRead, hs, ha, hv]

/-- `FbWrite` of a resident word sets that entry of the array (R53). -/
theorem fbWrite_resident {s : State} (hs : s.cfg.store = .resident) {a : Nat} (ha : a < s.cfg.words)
    (hlt : a < s.fb.length) (v : Word) : fbWrite a v s = .ok (s.setFb (s.fb.set a v)) := by
  simp [fbWrite, hs, ha, hlt]

/-- `FbWrite` of an external word is one `write16` (R57). -/
theorem fbWrite_external {s : State} (hs : s.cfg.store = .external) {a : Nat} (ha : a < s.cfg.words) (v : Word) :
    fbWrite a v s = .ok (xmWrite16 (wordBase s.cfg a) v s) := by
  simp [fbWrite, hs, ha]

theorem fbPeek_resident {s : State} (hs : s.cfg.store = .resident) {a : Nat} (ha : a < s.cfg.words) :
    fbPeek s a = s.fb[a]? := by
  simp [fbPeek, hs, ha]

/-- Settles O39: the array has an entry for every word, and `set` changes one entry. -/
theorem residentStoreReadsAndWrites : Obligations.ResidentStoreReadsAndWrites := by
  intro s a v h hs ha
  have hlt : a < s.fb.length := by rw [h.fb_length hs]; exact ha
  have hentry : s.fb[a]? = some s.fb[a] := List.getElem?_eq_getElem hlt
  refine ⟨⟨s.fb[a], hentry, fbRead_resident hs ha hentry⟩, s.fb.set a v, fbWrite_resident hs ha hlt v, fun b => ?_⟩
  by_cases hb : b = a
  · simp [hb, hlt]
  · simp [hb, Ne.symm hb]

/-- Settles O40: the read and the write of a word, byte by byte (`Memory.read_write16`). -/
theorem externalWordsAreHighByteFirst : Obligations.ExternalWordsAreHighByteFirst := by
  intro s b v h
  have hread := Memory.read_write16 h.xm_wf b (v := v)
  refine ⟨rfl, s.xm.write16 b v, rfl, Memory.write16_wf h.xm_wf b v, ?_, ?_, fun a hhi hlo => ?_⟩
  · simp [hread, hi8]
  · simp [hread, lo8]
  · simp [hread, hhi, hlo]

/-- Two words of an external framebuffer share no byte (R54). -/
theorem wordBase_apart (cfg : Config) {a b : Nat} (h : b ≠ a) :
    wordBase cfg b + 1 < wordBase cfg a ∨ wordBase cfg a + 1 < wordBase cfg b := by
  unfold wordBase
  omega

/-- What `FbWrite` of a word that exists does, in either store: it completes, that word is the value, every other word is as before
(R53, R57). -/
theorem fbWrite_spec {s : State} (h : s.wf) {a : Nat} (ha : a < s.cfg.words) (v : Word) :
    ∃ t, fbWrite a v s = .ok t ∧ t.wf ∧ t.cfg = s.cfg ∧ ∀ b, fbPeek t b = if b = a then some v else fbPeek s b := by
  have hxm := h.xm_wf
  obtain ⟨hcfg, -, hresident, hexternal⟩ := h
  cases hs : s.cfg.store with
  | resident =>
    obtain ⟨hlen, hrest⟩ := hresident hs
    have hlt : a < s.fb.length := by omega
    refine ⟨_, fbWrite_resident hs ha hlt v, ⟨hcfg, hxm, fun _ => ⟨by simpa using hlen, hrest⟩, ?_⟩, rfl, fun b => ?_⟩
    · simp [hs]
    · by_cases hb : b = a
      · simp [fbPeek, hs, hb, ha, hlt]
      · simp [fbPeek, hs, hb, Ne.symm hb]
  | external =>
    refine ⟨_, fbWrite_external hs ha v, ⟨hcfg, Memory.write16_wf hxm _ v, ?_, fun _ => hexternal hs⟩, rfl, fun b => ?_⟩
    · simp [xmWrite16, hs]
    · by_cases hb : b = a
      · simp [fbPeek, xmWrite16, hs, hb, ha, Memory.read16_write16 hxm]
      · simp [fbPeek, xmWrite16, hs, hb, Memory.read16_write16_ne hxm v (wordBase_apart s.cfg hb)]

/-- `FbRead` answers the word that is there (R52, R56, R70). -/
theorem fbRead_of_fbPeek {s : State} {a : Nat} {v : Word} (hv : fbPeek s a = some v) : ∃ t, fbRead a s = .ok (v, t) := by
  have ha : a < s.cfg.words := by
    by_contra ha
    simp [fbPeek, ha] at hv
  cases hs : s.cfg.store with
  | resident => exact ⟨s, fbRead_resident hs ha (by rw [← fbPeek_resident hs ha, hv])⟩
  | external =>
    rw [fbPeek_external hs ha, Option.some_inj] at hv
    exact ⟨s.emit [.xmR16 (wordBase s.cfg a) v], by simp [fbRead, xmRead16, ha, hs, hv]⟩

/-- Settles O41: `fbWrite_spec` says which words there are afterwards, `fbRead_of_fbPeek` that they are what is read. -/
theorem everyReadSeesTheLatestWrite : Obligations.EveryReadSeesTheLatestWrite := by
  intro s a v h ha
  obtain ⟨t, hwrite, hwf, -, hwords⟩ := fbWrite_spec h ha v
  refine ⟨t, hwrite, hwf, fun b hb => ?_⟩
  obtain ⟨u, hu⟩ := (fbPeek_isSome h b).2 hb
  have hafter : fbPeek t b = some (if b = a then v else u) := by
    rw [hwords, hu]
    split <;> rfl
  obtain ⟨t', hread⟩ := fbRead_of_fbPeek hafter
  exact ⟨u, _, t', hu, hread, rfl⟩

/-- Settles O38: `floor((8 * STRIDE + t) / 8)` is one whole column, and the row-in-word is that of `t`. -/
theorem lastPartialRowsAliasTheNextColumn : Obligations.LastPartialRowsAliasTheNextColumn := by
  intro s x t _ ht
  have hlane : (8 * s.cfg.stride + t) % 8 = t % 8 := by omega
  have haddr : wordAddr s.cfg x (8 * s.cfg.stride + t) = wordAddr s.cfg (x + 1) t := by
    unfold wordAddr
    rw [Nat.add_mul]
    omega
  refine ⟨haddr, ?_, ?_⟩
  · unfold pixBW
    rw [haddr, hlane]
  · unfold pixHL
    rw [haddr, hlane]

/-! ## The accesses of a draw -/

/-- A draw leaves the parameters. -/
theorem AccessesApplied.cfg_eq {c : Colour} {acc : List Access} {s t : State} (h : AccessesApplied c acc s t) :
    t.cfg = s.cfg := by
  rw [h.frame]

/-- HLINE runs the accesses of its native run, none when the colour is dropped (R111, R112). -/
theorem exec_hline_spec {s : State} (h : s.wf) (x y w : Int) (c : Colour) :
    ∃ t, exec (.hline x y w c) s = .next t
      ∧ AccessesApplied c (if highlightDropped s.cfg c then [] else hlineAccesses s.cfg s.rot x y w) s t :=
  draw_spec h c (rotateHline s.cfg s.rot x y w)

/-- VLINE likewise (R113). -/
theorem exec_vline_spec {s : State} (h : s.wf) (x y n : Int) (c : Colour) :
    ∃ t, exec (.vline x y n c) s = .next t
      ∧ AccessesApplied c (if highlightDropped s.cfg c then [] else vlineAccesses s.cfg s.rot x y n) s t :=
  draw_spec h c (rotateVline s.cfg s.rot x y n)

/-- The same accesses applied to the same words leave the same words, whatever the stores are. -/
theorem AccessesApplied.fbPeek_congr {c : Colour} {acc : List Access} {s s' t t' : State} (h : AccessesApplied c acc s t)
    (h' : AccessesApplied c acc s' t') (hwords : ∀ a, fbPeek s a = fbPeek s' a) (a : Nat) : fbPeek t a = fbPeek t' a := by
  rw [h.words, h'.words, hwords]

/-- Settles O42: the accesses of a draw depend on the rotation, the panel and HAS_HL, which the two machines share. -/
theorem drawsDoTheSameInBothStores : Obligations.DrawsDoTheSameInBothStores := by
  intro i s s' h h' _ _ hcfg hrot hwords hi
  have hdropped : ∀ c, highlightDropped s'.cfg c = highlightDropped s.cfg c := fun c => by rw [hcfg]; cases c <;> rfl
  cases i with
  | hline x y w c =>
    obtain ⟨t, ht, hA⟩ := exec_hline_spec h x y w c
    obtain ⟨t', ht', hA'⟩ := exec_hline_spec h' x y w c
    have hacc : hlineAccesses s'.cfg s'.rot x y w = hlineAccesses s.cfg s.rot x y w := by rw [hcfg, hrot]; rfl
    rw [hdropped, hacc] at hA'
    exact ⟨t, t', ht, ht', hA.fbPeek_congr hA' hwords⟩
  | vline x y n c =>
    obtain ⟨t, ht, hA⟩ := exec_vline_spec h x y n c
    obtain ⟨t', ht', hA'⟩ := exec_vline_spec h' x y n c
    have hacc : vlineAccesses s'.cfg s'.rot x y n = vlineAccesses s.cfg s.rot x y n := by rw [hcfg, hrot]; rfl
    rw [hdropped, hacc] at hA'
    exact ⟨t, t', ht, ht', hA.fbPeek_congr hA' hwords⟩
  | _ => simp [Instr.opcode] at hi

/-! ## The events of a draw -/

/-- A resident draw emits no event, and so does one without accesses. -/
theorem AccessesApplied.newEvents_nil {c : Colour} {acc : List Access} {s t : State} (h : AccessesApplied c acc s t)
    (hnone : s.cfg.store = .resident ∨ acc = []) : newEvents s t = [] := by
  refine newEvents_of_append ?_
  rw [List.append_nil]
  cases hs : s.cfg.store with
  | resident =>
    obtain ⟨-, htrace⟩ := h.resident hs
    exact htrace
  | external =>
    obtain ⟨-, -, -, htrace⟩ := h.external hs
    obtain rfl : acc = [] := hnone.resolve_left (by simp [hs])
    rw [htrace, accessEvents, List.append_nil]

/-- An external draw emits one pair for each access, at the access's byte address, in order (R134). -/
theorem AccessesApplied.newEvents_pairs {c : Colour} {acc : List Access} {s t : State} (h : AccessesApplied c acc s t)
    (hs : s.cfg.store = .external) :
    ∃ pairs, newEvents s t = accessPairs pairs ∧ pairs.map (·.1) = acc.map fun a => wordBase s.cfg a.addr := by
  obtain ⟨-, -, -, htrace⟩ := h.external hs
  rw [newEvents_of_append htrace]
  exact accessEvents_pairs _ _ _ _

/-- HRUN does nothing for a row off the panel or an empty clamped run (R122, R123). -/
theorem hrunAccesses_nil {cfg : Config} {x y w : Int}
    (h : y < 0 ∨ (cfg.height : Int) ≤ y ∨ (clampSpan cfg.width x w).2 ≤ 0) : hrunAccesses cfg x y w = [] := by
  unfold hrunAccesses
  split_ifs with hrow
  · rfl
  · exact if_pos (by omega)

/-- HRUN otherwise touches the clamped run (R124). -/
theorem hrunAccesses_eq {cfg : Config} {x y w : Int} (hy : 0 ≤ y) (hy' : y < cfg.height)
    (hlen : 0 < (clampSpan cfg.width x w).2) :
    hrunAccesses cfg x y w
      = horizontalAccesses cfg (clampSpan cfg.width x w).1.toNat y.toNat (clampSpan cfg.width x w).2.toNat := by
  unfold hrunAccesses
  rw [if_neg (by omega), if_neg (by omega)]

/-- VRUN does nothing for a column off the panel or an empty clamped run (R127). -/
theorem vrunAccesses_nil {cfg : Config} {x y h : Int}
    (hnone : x < 0 ∨ (cfg.width : Int) ≤ x ∨ (clampSpan cfg.height y h).2 ≤ 0) : vrunAccesses cfg x y h = [] := by
  unfold vrunAccesses
  split_ifs with hcol
  · rfl
  · exact if_pos (by omega)

/-- VRUN otherwise touches the clamped run (R128 to R130). -/
theorem vrunAccesses_eq {cfg : Config} {x y h : Int} (hx : 0 ≤ x) (hx' : x < cfg.width)
    (hlen : 0 < (clampSpan cfg.height y h).2) :
    vrunAccesses cfg x y h
      = verticalAccesses cfg x.toNat (clampSpan cfg.height y h).1.toNat (clampSpan cfg.height y h).2.toNat := by
  unfold vrunAccesses
  rw [if_neg (by omega), if_neg (by omega)]

/-- The byte addresses of a horizontal run (R50, R54, R124). -/
theorem horizontalAccesses_wordBase (cfg : Config) (x y w : Nat) :
    (horizontalAccesses cfg x y w).map (fun a => wordBase cfg a.addr)
      = (List.range w).map fun j => cfg.extBase + 2 * ((x + j) * cfg.stride + y / 8) := by
  rw [horizontalAccesses, List.map_map]
  refine List.map_congr_left fun j _ => ?_
  simp only [Function.comp_apply, wordBase, wordAddr]
  ring

/-- The byte addresses of a vertical run: the whole words, then the one partial word again and again (R129, R130). -/
theorem verticalAccesses_wordBase (cfg : Config) (x y h : Nat) :
    (verticalAccesses cfg x y h).map (fun a => wordBase cfg a.addr)
      = ((List.range (h / 8)).map fun b => cfg.extBase + 2 * (x * cfg.stride + y / 8 + b))
        ++ List.replicate (h % 8) (cfg.extBase + 2 * (x * cfg.stride + y / 8 + h / 8)) := by
  simp [verticalAccesses, Function.comp_def, wordBase, wordAddr]

/-- The pairs of an external horizontal run (R134). -/
theorem hrun_newEvents {s t : State} {c : Colour} {x y w : Int} (h : AccessesApplied c (hrunAccesses s.cfg x y w) s t)
    (hs : s.cfg.store = .external) (hy : 0 ≤ y) (hy' : y < s.cfg.height) (hlen : 0 < (clampSpan s.cfg.width x w).2) :
    ∃ pairs, newEvents s t = accessPairs pairs
      ∧ pairs.map (·.1) = (List.range (clampSpan s.cfg.width x w).2.toNat).map fun j =>
          s.cfg.extBase + 2 * (((clampSpan s.cfg.width x w).1.toNat + j) * s.cfg.stride + y.toNat / 8) := by
  rw [hrunAccesses_eq hy hy' hlen] at h
  rw [← horizontalAccesses_wordBase]
  exact h.newEvents_pairs hs

/-- The pairs of an external vertical run (R134). -/
theorem vrun_newEvents {s t : State} {c : Colour} {x y n : Int} (h : AccessesApplied c (vrunAccesses s.cfg x y n) s t)
    (hs : s.cfg.store = .external) (hx : 0 ≤ x) (hx' : x < s.cfg.width) (hlen : 0 < (clampSpan s.cfg.height y n).2) :
    ∃ pairs, newEvents s t = accessPairs pairs
      ∧ pairs.map (·.1) =
          ((List.range ((clampSpan s.cfg.height y n).2.toNat / 8)).map fun b =>
            s.cfg.extBase + 2 * (x.toNat * s.cfg.stride + (clampSpan s.cfg.height y n).1.toNat / 8 + b))
          ++ List.replicate ((clampSpan s.cfg.height y n).2.toNat % 8)
            (s.cfg.extBase + 2 * (x.toNat * s.cfg.stride + (clampSpan s.cfg.height y n).1.toNat / 8
              + (clampSpan s.cfg.height y n).2.toNat / 8)) := by
  rw [vrunAccesses_eq hx hx' hlen] at h
  rw [← verticalAccesses_wordBase]
  exact h.newEvents_pairs hs

/-- Settles O37: HLINE and VLINE run the accesses of their native run, none when the colour is dropped, and a run off the panel or
of no length has none. -/
theorem drawEventCounts : Obligations.DrawEventCounts := by
  intro i c r s h hi
  obtain ⟨t, ht, hA⟩ : ∃ t, exec i s = .next t
      ∧ AccessesApplied c (if highlightDropped s.cfg c then [] else r.accesses s.cfg) s t := by
    rcases hi with ⟨x, y, w, rfl, rfl⟩ | ⟨x, y, n, rfl, rfl⟩
    · exact exec_hline_spec h x y w c
    · exact exec_vline_spec h x y n c
  refine ⟨t, ht, fun hnone => hA.newEvents_nil (hnone.imp_right fun hd => if_pos ((highlightDropped_iff _ _).2 hd)),
    fun hs hkept => ?_⟩
  rw [if_neg (fun hd => hkept ((highlightDropped_iff _ _).1 hd))] at hA
  obtain ⟨axis, rx, ry, rlen⟩ := r
  refine ⟨fun haxis x len hspan => ?_, fun haxis y len hspan => ?_⟩
  · obtain rfl : axis = .horizontal := haxis
    obtain ⟨rfl, rfl⟩ := Prod.mk.inj hspan
    exact ⟨fun hnone => hA.newEvents_nil (.inr (hrunAccesses_nil hnone)), hrun_newEvents hA hs⟩
  · obtain rfl : axis = .vertical := haxis
    obtain ⟨rfl, rfl⟩ := Prod.mk.inj hspan
    exact ⟨fun hnone => hA.newEvents_nil (.inr (vrunAccesses_nil hnone)), vrun_newEvents hA hs⟩

end Sys2Proof.Machine
end

section
/-! Proofs: what a run does to the pixels of the panel, both planes at once (spec 20_memory.md R51, R70, 40_geometry.md R116, R117,
R131, R132), and the round trip of HLINE and VLINE (R233). -/

namespace Sys2Proof.Machine

/-! ## One pixel of a plane -/

/-- The bit of a word that holds a plane's pixel of row-in-word `k` (R51). -/
def Plane.bit : Plane → Nat → Nat
  | .bw, k => 7 - k
  | .hl, k => 15 - k

/-- A pixel's bit in a plane after a colour is applied to it (R116). -/
def Plane.after : Plane → Colour → Level → Level
  | .bw => bwAfter
  | .hl => hlAfter

/-- `PixBW` and `PixHL` in one function (R70). -/
def pix (p : Plane) (s : State) (x y : Nat) : Option Level :=
  (fbPeek s (wordAddr s.cfg x y)).map fun v => v.getLsbD (p.bit (y % 8))

theorem pixBW_eq_pix (s : State) (x y : Nat) : pixBW s x y = pix .bw s x y := rfl
theorem pixHL_eq_pix (s : State) (x y : Nat) : pixHL s x y = pix .hl s x y := rfl

/-- No two pixels share a bit, nor do the planes of one pixel (R51). -/
theorem Plane.bit_eq_iff (p q : Plane) {j k : Nat} (hj : j < 8) (hk : k < 8) : p.bit j = q.bit k ↔ p = q ∧ j = k := by
  cases p <;> cases q <;>
    simp only [Plane.bit, reduceCtorEq, true_and, false_and, iff_false] <;> omega

theorem Plane.bit_lt (p : Plane) (k : Nat) : p.bit k < 16 := by
  cases p <;> simp only [Plane.bit] <;> omega

/-- The mask of one pixel's bit in plane `q` (R116), at the bit of a pixel in plane `p`. -/
theorem getLsbD_oneBit_bit (p q : Plane) {j k : Nat} (hj : j < 8) (hk : k < 8) :
    (oneBit (q.bit j)).getLsbD (p.bit k) = decide (q = p ∧ j = k) := by
  have htwoPow := BitVec.getLsbD_twoPow (w := 16) (q.bit j) (p.bit k)
  simpa [q.bit_lt, Plane.bit_eq_iff q p hj hk, BitVec.twoPow, oneBit] using htwoPow

/-- The masks of R117: the low byte is the black/white plane's, the high byte the highlight plane's. -/
theorem getLsbD_planeMasks : ∀ (p : Plane), ∀ k < 8,
    (0x00FF#16).getLsbD (p.bit k) = decide (p = .bw) ∧ (0xFF00#16).getLsbD (p.bit k) = decide (p = .hl)
  | .bw => by decide
  | .hl => by decide

/-- A bit operation moves the bit of its row in each plane as the colour says, and no other pixel's (R116). -/
theorem getLsbD_applyBit (p : Plane) (c : Colour) (v : Word) {j k : Nat} (hj : j < 8) (hk : k < 8) :
    (applyBit v c j).getLsbD (p.bit k)
      = if j = k then p.after c (v.getLsbD (p.bit k)) else v.getLsbD (p.bit k) := by
  have hbw : (oneBit (7 - j)).getLsbD (p.bit k) = decide (.bw = p ∧ j = k) := getLsbD_oneBit_bit p .bw hj hk
  have hhl : (oneBit (15 - j)).getLsbD (p.bit k) = decide (.hl = p ∧ j = k) := getLsbD_oneBit_bit p .hl hj hk
  obtain rfl | hjk := eq_or_ne j k
  · cases c <;> cases p <;> simp [applyBit, Plane.after, bwAfter, hlAfter, hbw, hhl, Plane.bit_lt, -BitVec.getLsbD_eq_getElem]
  · cases c <;> simp [applyBit, hbw, hhl, hjk, Plane.bit_lt, -BitVec.getLsbD_eq_getElem]

/-- A block operation moves every pixel of its word in each plane as the colour says (R117). -/
theorem getLsbD_applyBlock (p : Plane) (c : Colour) (v : Word) {k : Nat} (hk : k < 8) :
    (applyBlock v c).getLsbD (p.bit k) = p.after c (v.getLsbD (p.bit k)) := by
  obtain ⟨hlow, hhigh⟩ := getLsbD_planeMasks p k hk
  cases c <;> cases p <;> simp [applyBlock, Plane.after, bwAfter, hlAfter, hlow, hhigh]

/-! ## The pixels that a list of read-modify-writes touches -/

theorem wordAfter_append (c : Colour) (acc acc' : List Access) (a : Nat) (v : Word) :
    wordAfter c (acc ++ acc') a v = wordAfter c acc' a (wordAfter c acc a v) :=
  List.foldl_append

/-- In both planes the read-modify-writes apply the colour, once, to the pixels of the panel in `P`, and leave its other pixels. -/
def Paints (cfg : Config) (c : Colour) (acc : List Access) (P : Nat → Nat → Prop) : Prop :=
  ∀ (p : Plane) (x y : Nat) (v : Word), x < cfg.width → y < cfg.height →
    (P x y → (wordAfter c acc (wordAddr cfg x y) v).getLsbD (p.bit (y % 8)) = p.after c (v.getLsbD (p.bit (y % 8))))
    ∧ (¬P x y → (wordAfter c acc (wordAddr cfg x y) v).getLsbD (p.bit (y % 8)) = v.getLsbD (p.bit (y % 8)))

section
variable {cfg : Config} {c : Colour} {acc acc' : List Access} {P Q : Nat → Nat → Prop}

/-- Only the pixels of the panel matter. -/
theorem Paints.congr (h : Paints cfg c acc P) (hPQ : ∀ x y, x < cfg.width → y < cfg.height → (P x y ↔ Q x y)) :
    Paints cfg c acc Q := fun p x y v hx hy => by
  rw [← hPQ x y hx hy]
  exact h p x y v hx hy

theorem paints_nil (hP : ∀ x y, x < cfg.width → y < cfg.height → ¬P x y) : Paints cfg c [] P :=
  fun _ x y _ hx hy => ⟨fun h => absurd h (hP x y hx hy), fun _ => rfl⟩

/-- Two lists that touch no common pixel, one after the other. -/
theorem Paints.append (h : Paints cfg c acc P) (h' : Paints cfg c acc' Q) (hdisjoint : ∀ x y, P x y → ¬Q x y) :
    Paints cfg c (acc ++ acc') fun x y => P x y ∨ Q x y := by
  intro p x y v hx hy
  rw [wordAfter_append]
  obtain ⟨hin, hout⟩ := h p x y v hx hy
  obtain ⟨hin', hout'⟩ := h' p x y (wordAfter c acc (wordAddr cfg x y) v) hx hy
  refine ⟨?_, fun hnot => ?_⟩
  · rintro (hP | hQ)
    · rw [hout' (hdisjoint x y hP), hin hP]
    · rw [hin' hQ, hout fun hP => hdisjoint x y hP hQ]
  · rw [hout' fun hQ => hnot (.inr hQ), hout fun hP => hnot (.inl hP)]

/-- One bit operation touches the pixel of its row in its word (R116). -/
theorem paints_pixel {a j : Nat} (hj : j < 8) :
    Paints cfg c [⟨a, .pixel j⟩] fun x y => a = wordAddr cfg x y ∧ j = y % 8 := by
  intro p x y v _ _
  have hbit := getLsbD_applyBit p c v hj (Nat.mod_lt y (by omega : 0 < 8))
  rw [wordAfter_cons, wordAfter_nil]
  by_cases ha : a = wordAddr cfg x y
  · rw [if_pos ha]
    exact ⟨fun ⟨_, hk⟩ => hbit.trans (if_pos hk), fun hnot => hbit.trans (if_neg fun hk => hnot ⟨ha, hk⟩)⟩
  · simp [ha]

/-- One block operation touches the eight pixels of its word (R117). -/
theorem paints_block {a : Nat} : Paints cfg c [⟨a, .block⟩] fun x y => a = wordAddr cfg x y := by
  intro p x y v _ _
  have hbit := getLsbD_applyBlock p c v (Nat.mod_lt y (by omega : 0 < 8))
  rw [wordAfter_cons, wordAfter_nil]
  by_cases ha : a = wordAddr cfg x y
  · simp [ha, applyLanes, hbit]
  · simp [ha]

/-- A loop whose rounds touch no common pixel. -/
theorem paints_range {f : Nat → Access} {R : Nat → Nat → Nat → Prop} (n : Nat)
    (hround : ∀ i < n, Paints cfg c [f i] (R i)) (hdisjoint : ∀ i j x y, i < j → R i x y → ¬R j x y) :
    Paints cfg c ((List.range n).map f) fun x y => ∃ i < n, R i x y := by
  induction n with
  | zero => exact paints_nil (by simp)
  | succ n ih =>
    have hfirst := ih fun i hi => hround i (by omega)
    rw [List.range_succ, List.map_append]
    refine (hfirst.append (hround n (by omega)) ?_).congr fun x y _ _ => ?_
    · rintro x y ⟨i, hi, hR⟩
      exact hdisjoint i n x y hi hR
    · simp only [Nat.lt_succ_iff_lt_or_eq, or_and_right, exists_or, exists_eq_left]

/-! ## The pixels of a run -/

/-- With whole words in a column, a word belongs to one column and holds eight rows of it (R50, R51). -/
theorem wordAddr_eq_iff (hmod : cfg.height % 8 = 0) {x y x' y' : Nat} (hy : y < cfg.height) (hy' : y' < cfg.height) :
    wordAddr cfg x y = wordAddr cfg x' y' ↔ x = x' ∧ y / 8 = y' / 8 := by
  have hq : y / 8 < cfg.stride := by unfold Config.stride; omega
  have hq' : y' / 8 < cfg.stride := by unfold Config.stride; omega
  have hpos : 0 < cfg.stride := by omega
  unfold wordAddr
  refine ⟨fun h => ?_, fun ⟨hx, hrow⟩ => by rw [hx, hrow]⟩
  have hdiv := congrArg (· / cfg.stride) h
  have hrem := congrArg (· % cfg.stride) h
  simp only [Nat.mul_add_mod', Nat.mod_eq_of_lt hq, Nat.mod_eq_of_lt hq'] at hrem
  simp only [Nat.add_comm (_ * _), Nat.add_mul_div_right _ _ hpos, Nat.div_eq_of_lt hq, Nat.div_eq_of_lt hq'] at hdiv
  exact ⟨by omega, hrem⟩

/-- The pixel operations of a horizontal run touch its pixels, each once (R124, R125). -/
theorem horizontalAccesses_paints (hmod : cfg.height % 8 = 0) (x w : Nat) {y : Nat} (hy : y < cfg.height) :
    Paints cfg c (horizontalAccesses cfg x y w) fun px py => py = y ∧ x ≤ px ∧ px < x + w := by
  have hloop : Paints cfg c (horizontalAccesses cfg x y w) fun px py => ∃ j < w, px = x + j ∧ py = y := by
    refine paints_range w (fun j _ => ?_) (fun _ _ _ _ _ _ _ => by omega)
    refine (paints_pixel (Nat.mod_lt y (by omega))).congr fun px py _ hpy => ?_
    have haddr : wordAddr cfg x y + j * cfg.stride = wordAddr cfg (x + j) y := by unfold wordAddr; ring
    rw [haddr, wordAddr_eq_iff hmod hy hpy]
    omega
  refine hloop.congr fun px py _ _ => ⟨?_, fun ⟨hrow, hlo, hhi⟩ => ⟨px - x, by omega, by omega, hrow⟩⟩
  rintro ⟨j, hj, rfl, rfl⟩
  omega

/-- The blocks and the bit operations of a vertical run touch the `h` rows from the top of the word of its start on, each once (R128
to R131). -/
theorem verticalAccesses_paints (hmod : cfg.height % 8 = 0) (x : Nat) {y h : Nat} (hh : y + h ≤ cfg.height) :
    Paints cfg c (verticalAccesses cfg x y h) fun px py => px = x ∧ 8 * (y / 8) ≤ py ∧ py < 8 * (y / 8) + h := by
  have hblocks : Paints cfg c ((List.range (h / 8)).map fun b => ⟨wordAddr cfg x y + b, .block⟩)
      fun px py => ∃ b < h / 8, px = x ∧ py / 8 = y / 8 + b := by
    refine paints_range _ (fun b hb => ?_) (fun _ _ _ _ _ _ _ => by omega)
    refine paints_block.congr fun px py _ hpy => ?_
    have haddr : wordAddr cfg x y + b = wordAddr cfg x (8 * (y / 8 + b)) := by unfold wordAddr; omega
    rw [haddr, wordAddr_eq_iff hmod (by omega) hpy]
    omega
  have hbits : Paints cfg c ((List.range (h % 8)).map fun i => ⟨wordAddr cfg x y + h / 8, .pixel i⟩)
      fun px py => ∃ i < h % 8, px = x ∧ py = 8 * (y / 8 + h / 8) + i := by
    refine paints_range _ (fun i hi => ?_) (fun _ _ _ _ _ _ _ => by omega)
    refine (paints_pixel (by omega)).congr fun px py _ hpy => ?_
    have haddr : wordAddr cfg x y + h / 8 = wordAddr cfg x (8 * (y / 8 + h / 8)) := by unfold wordAddr; omega
    rw [haddr, wordAddr_eq_iff hmod (by omega) hpy]
    omega
  refine (hblocks.append hbits ?_).congr fun px py _ _ => ⟨?_, fun ⟨hcol, hlo, hhi⟩ => ?_⟩
  · rintro px py ⟨b, hb, -, hrow⟩ ⟨i, hi, -, hrow'⟩
    omega
  · rintro (⟨b, hb, hcol, hrow⟩ | ⟨i, hi, hcol, hrow⟩) <;> omega
  · by_cases hlast : py < 8 * (y / 8 + h / 8)
    · exact .inl ⟨py / 8 - y / 8, by omega, hcol, by omega⟩
    · exact .inr ⟨py - 8 * (y / 8 + h / 8), by omega, hcol, by omega⟩

/-- The clamp keeps exactly the part of the run that lies on the panel (R123, R127). -/
theorem mem_clampSpan_iff (bound start len v : Int) :
    ((clampSpan bound start len).1 ≤ v ∧ v < (clampSpan bound start len).1 + (clampSpan bound start len).2)
      ↔ start ≤ v ∧ v < start + len ∧ 0 ≤ v ∧ v < bound := by
  unfold clampSpan
  simp only
  split_ifs <;> omega

/-- The clamp keeps a run inside the panel as it is. -/
theorem clampSpan_of_inside {bound start len : Int} (hlo : 0 ≤ start) (hhi : start + len ≤ bound) :
    clampSpan bound start len = (start, len) := by
  unfold clampSpan
  simp only
  rw [if_neg (by omega), if_neg (by omega), if_neg (by omega)]

/-- HRUN touches the pixels of its run that lie on the panel (R132). -/
theorem hrunAccesses_paints (hmod : cfg.height % 8 = 0) (x y w : Int) :
    Paints cfg c (hrunAccesses cfg x y w) fun px py => (py : Int) = y ∧ x ≤ px ∧ (px : Int) < x + w := by
  have hclamp := mem_clampSpan_iff cfg.width x w
  have hrange := clampSpan_range cfg.width x w
  by_cases hnone : y < 0 ∨ (cfg.height : Int) ≤ y ∨ (clampSpan cfg.width x w).2 ≤ 0
  · rw [hrunAccesses_nil hnone]
    refine paints_nil fun px py hpx hpy => ?_
    have := hclamp px
    omega
  · rw [hrunAccesses_eq (by omega) (by omega) (by omega)]
    refine (horizontalAccesses_paints hmod _ _ (by omega)).congr fun px py hpx hpy => ?_
    have := hclamp px
    omega

/-- VRUN touches the rows from the top of the word of its clamped start on (R131). -/
theorem vrunAccesses_paints (hmod : cfg.height % 8 = 0) (x y h : Int) :
    Paints cfg c (vrunAccesses cfg x y h) fun px py =>
      (px : Int) = x ∧ 8 * ((clampSpan cfg.height y h).1 / 8) ≤ py
        ∧ (py : Int) < 8 * ((clampSpan cfg.height y h).1 / 8) + (clampSpan cfg.height y h).2 := by
  have hrange := clampSpan_range cfg.height y h
  by_cases hnone : x < 0 ∨ (cfg.width : Int) ≤ x ∨ (clampSpan cfg.height y h).2 ≤ 0
  · rw [vrunAccesses_nil hnone]
    exact paints_nil fun px py hpx hpy => by omega
  · rw [vrunAccesses_eq (by omega) (by omega) (by omega)]
    exact (verticalAccesses_paints hmod _ (by omega)).congr fun px py hpx hpy => by omega

end

/-- What a draw does to one pixel of the panel. -/
theorem Paints.pix_eq {c : Colour} {acc : List Access} {P : Nat → Nat → Prop} [∀ x y, Decidable (P x y)] {s t : State}
    (h : Paints s.cfg c acc P) (hA : AccessesApplied c acc s t) (p : Plane) {x y : Nat} (hx : x < s.cfg.width)
    (hy : y < s.cfg.height) : pix p t x y = (pix p s x y).map fun old => if P x y then p.after c old else old := by
  unfold pix
  rw [hA.cfg_eq, hA.words, Option.map_map, Option.map_map]
  congr 1
  funext v
  obtain ⟨hin, hout⟩ := h p x y v hx hy
  simp only [Function.comp_apply]
  split_ifs with hP
  · exact hin hP
  · exact hout hP

/-- A native run in a well-formed state completes and leaves what its accesses make of the words (R59, R115). -/
theorem Run.accesses_spec {s : State} (h : s.wf) (c : Colour) (r : Run) :
    ∃ t, applyAccesses c (r.accesses s.cfg) s = .next t ∧ AccessesApplied c (r.accesses s.cfg) s t :=
  applyAccesses_spec h (r.accesses_lt s.cfg)

/-- Settles O32: `hrunAccesses_paints`, plane by plane. -/
theorem horizontalRunChangesExactlyItsPixels : Obligations.HorizontalRunChangesExactlyItsPixels := by
  intro s x y w c h hmod
  obtain ⟨t, ht, hA⟩ := Run.accesses_spec h c ⟨.horizontal, x, y, w⟩
  have hpaints := hrunAccesses_paints (c := c) hmod x y w
  exact ⟨t, ht, fun px py hx hy => ⟨hpaints.pix_eq hA .bw hx hy, hpaints.pix_eq hA .hl hx hy⟩⟩

/-- Settles O33: `vrunAccesses_paints`, plane by plane. -/
theorem verticalRunStartsAtTheTopOfItsWord : Obligations.VerticalRunStartsAtTheTopOfItsWord := by
  rintro s x y h q n c hwf hmod rfl rfl
  obtain ⟨t, ht, hA⟩ := Run.accesses_spec hwf c ⟨.vertical, x, y, h⟩
  have hpaints := vrunAccesses_paints (c := c) hmod x y h
  exact ⟨t, ht, fun px py hx hy => ⟨hpaints.pix_eq hA .bw hx hy, hpaints.pix_eq hA .hl hx hy⟩⟩

/-! ## Logical and native pixels -/

/-- The native pixel is one of the run's. -/
def Run.Contains (r : Run) (px py : Nat) : Prop :=
  match r.axis with
  | .horizontal => (py : Int) = r.y ∧ r.x ≤ px ∧ (px : Int) < r.x + r.len
  | .vertical => (px : Int) = r.x ∧ r.y ≤ py ∧ (py : Int) < r.y + r.len

/-- A pixel of a run stands at some offset along its axis. -/
theorem Run.Contains.exists_offset {r : Run} {px py n : Nat} (h : r.Contains px py) (hn : r.len = n) :
    ∃ k : Nat, k < n ∧ (r.axis = .horizontal → (px : Int) = r.x + k ∧ (py : Int) = r.y)
      ∧ (r.axis = .vertical → (px : Int) = r.x ∧ (py : Int) = r.y + k) := by
  unfold Run.Contains at h
  split at h
  · next haxis =>
    obtain ⟨hrow, hlo, hhi⟩ := h
    exact ⟨(px - r.x).toNat, by omega, fun _ => by omega, fun hv => by simp [haxis] at hv⟩
  · next haxis =>
    obtain ⟨hcol, hlo, hhi⟩ := h
    exact ⟨(py - r.y).toNat, by omega, fun hv => by simp [haxis] at hv, fun _ => by omega⟩

/-- A logical pixel is on the logical panel, its image on the native one (R70). -/
theorem native_lt {cfg : Config} {rot : Rotation} {x y : Nat} (hx : x < logicalWidth cfg rot)
    (hy : y < logicalHeight cfg rot) : (native cfg rot x y).1 < cfg.width ∧ (native cfg rot x y).2 < cfg.height := by
  cases rot <;> simp only [logicalWidth, logicalHeight, native] at hx hy ⊢ <;> omega

@[simp] theorem rotateHline_len (cfg : Config) (rot : Rotation) (x y n : Int) : (rotateHline cfg rot x y n).len = n := by
  cases rot <;> rfl

@[simp] theorem rotateVline_len (cfg : Config) (rot : Rotation) (x y n : Int) : (rotateVline cfg rot x y n).len = n := by
  cases rot <;> rfl

/-- The image of a logical pixel is on the native run of HLINE exactly when the pixel is on the logical run (R112, R135). -/
theorem rotateHline_contains_native_iff {cfg : Config} {rot : Rotation} {x y n lx ly : Nat}
    (hx : x + n ≤ logicalWidth cfg rot) (hy : y < logicalHeight cfg rot) (hlx : lx < logicalWidth cfg rot)
    (hly : ly < logicalHeight cfg rot) :
    (rotateHline cfg rot x y n).Contains (native cfg rot lx ly).1 (native cfg rot lx ly).2
      ↔ ly = y ∧ x ≤ lx ∧ lx < x + n := by
  cases rot <;>
    simp only [logicalWidth, logicalHeight, rotateHline, native, Run.Contains, Run.swap, Run.reflectX, Run.reflectY, Run.backX,
      Run.backY, Axis.other] at hx hy hlx hly ⊢ <;>
    omega

/-- The same for VLINE (R113, R135). -/
theorem rotateVline_contains_native_iff {cfg : Config} {rot : Rotation} {x y n lx ly : Nat}
    (hx : x < logicalWidth cfg rot) (hy : y + n ≤ logicalHeight cfg rot) (hlx : lx < logicalWidth cfg rot)
    (hly : ly < logicalHeight cfg rot) :
    (rotateVline cfg rot x y n).Contains (native cfg rot lx ly).1 (native cfg rot lx ly).2
      ↔ lx = x ∧ y ≤ ly ∧ ly < y + n := by
  cases rot <;>
    simp only [logicalWidth, logicalHeight, rotateVline, native, Run.Contains, Run.swap, Run.reflectX, Run.reflectY, Run.backX,
      Run.backY, Axis.other] at hx hy hlx hly ⊢ <;>
    omega

/-- Settles O25: the image is on the native run, so it stands at an offset along its axis. -/
theorem transformMapsLogicalPixelsToNativePixels : Obligations.TransformMapsLogicalPixelsToNativePixels := by
  intro cfg rot x y n j hj
  refine ⟨fun hx hy => ?_, fun hx hy => ?_⟩
  · have himage := (rotateHline_contains_native_iff (lx := x + j) (ly := y) hx hy (by omega) hy).2 (by omega)
    exact himage.exists_offset (by simp)
  · have himage := (rotateVline_contains_native_iff (lx := x) (ly := y + j) hx hy hx (by omega)).2 (by omega)
    exact himage.exists_offset (by simp)

/-! ## The round trip -/

/-- A run that needs no shift: horizontal, or vertical on the panel from the top row of a word (R131, R233). -/
def Run.Aligned (cfg : Config) (r : Run) : Prop :=
  r.axis = .vertical → 0 ≤ r.y ∧ r.y % 8 = 0 ∧ r.y + r.len ≤ cfg.height

/-- Such a run touches exactly its own pixels. -/
theorem Run.Aligned.paints {cfg : Config} {c : Colour} {r : Run} (h : r.Aligned cfg) (hmod : cfg.height % 8 = 0) :
    Paints cfg c (r.accesses cfg) r.Contains := by
  obtain ⟨axis, x, y, len⟩ := r
  cases axis with
  | horizontal => exact hrunAccesses_paints hmod x y len
  | vertical =>
    obtain ⟨hlo, haligned, hhi⟩ := h rfl
    have hrun := vrunAccesses_paints (c := c) hmod x y len
    simp only at hlo haligned hhi
    rw [clampSpan_of_inside hlo hhi] at hrun
    exact hrun.congr fun px py _ _ => by simp only [Run.Contains]; omega

theorem rotateHline_aligned {cfg : Config} {rot : Rotation} {x y n : Nat} (hx : x + n ≤ logicalWidth cfg rot)
    (h90 : rot = .deg90 → x % 8 = 0) (h270 : rot = .deg270 → (cfg.height - x - n) % 8 = 0) :
    (rotateHline cfg rot x y n).Aligned cfg := by
  intro haxis
  cases rot with
  | deg0 => cases haxis
  | deg180 => cases haxis
  | deg90 =>
    have := h90 rfl
    simp only [logicalWidth] at hx
    simp only [rotateHline, Run.swap, Run.reflectX]
    omega
  | deg270 =>
    have := h270 rfl
    simp only [logicalWidth] at hx
    simp only [rotateHline, Run.swap, Run.reflectY, Run.backY]
    omega

theorem rotateVline_aligned {cfg : Config} {rot : Rotation} {x y n : Nat} (hy : y + n ≤ logicalHeight cfg rot)
    (h0 : rot = .deg0 → y % 8 = 0) (h180 : rot = .deg180 → (cfg.height - y - n) % 8 = 0) :
    (rotateVline cfg rot x y n).Aligned cfg := by
  intro haxis
  cases rot with
  | deg90 => cases haxis
  | deg270 => cases haxis
  | deg0 =>
    have := h0 rfl
    simp only [logicalHeight] at hy
    simp only [rotateVline]
    omega
  | deg180 =>
    have := h180 rfl
    simp only [logicalHeight] at hy
    simp only [rotateVline, Run.reflectX, Run.reflectY, Run.backY]
    omega

/-- A pixel of the panel has a value in a well-formed state (R59). -/
theorem exists_pix {s : State} (h : s.wf) (p : Plane) {x y : Nat} (hx : x < s.cfg.width) (hy : y < s.cfg.height) :
    ∃ v, pix p s x y = some v := by
  obtain ⟨v, hv⟩ := (fbPeek_isSome h _).2 (wordAddr_lt hx hy)
  exact ⟨_, by rw [pix, hv]; rfl⟩

/-- The round trip, for any draw whose native run is aligned and holds the images of the logical pixels in `L` (R233). -/
theorem round_trip {s t : State} (h : s.wf) (hmod : s.cfg.height % 8 = 0) {c : Colour} (hc : c = .black ∨ c = .white)
    {r : Run} (hr : r.Aligned s.cfg)
    (hA : AccessesApplied c (if highlightDropped s.cfg c then [] else r.accesses s.cfg) s t) {L : Nat → Nat → Prop}
    (hL : ∀ x y, x < logicalWidth s.cfg s.rot → y < logicalHeight s.cfg s.rot →
      (r.Contains (native s.cfg s.rot x y).1 (native s.cfg s.rot x y).2 ↔ L x y)) :
    (∀ x y, x < logicalWidth s.cfg s.rot → y < logicalHeight s.cfg s.rot →
        (L x y → logPixBW t s.rot x y = some (decide (c = .black)))
        ∧ (¬L x y → logPixBW t s.rot x y = logPixBW s s.rot x y))
      ∧ ∀ px py, px < s.cfg.width → py < s.cfg.height → pixHL t px py = pixHL s px py := by
  classical
  have hkept : highlightDropped s.cfg c = false := by rcases hc with rfl | rfl <;> rfl
  rw [hkept] at hA
  have hpix := fun p px py => (hr.paints (c := c) hmod).pix_eq hA p (x := px) (y := py)
  refine ⟨fun x y hx hy => ?_, fun px py hx hy => ?_⟩
  · obtain ⟨hnx, hny⟩ := native_lt hx hy
    obtain ⟨old, hold⟩ := exists_pix h .bw hnx hny
    simp only [logPixBW, pixBW_eq_pix, hA.cfg_eq]
    rw [hpix .bw _ _ hnx hny, hold, ← hL x y hx hy]
    refine ⟨fun hin => ?_, fun hout => ?_⟩
    · rcases hc with rfl | rfl <;> simp [hin, Plane.after, bwAfter]
    · simp [hout]
  · obtain ⟨old, hold⟩ := exists_pix h .hl hx hy
    rw [pixHL_eq_pix, pixHL_eq_pix, hpix .hl px py hx hy, hold]
    rcases hc with rfl | rfl <;> simp [Plane.after, hlAfter]

/-- Settles O34: the run that HLINE ends in is aligned and holds the images of the logical run. -/
theorem hlineRoundTrip : Obligations.HlineRoundTrip := by
  intro s x y w c h hmod hc _ hx hy h90 h270
  obtain ⟨t, ht, hA⟩ := exec_hline_spec h x y w c
  obtain ⟨hlog, hhl⟩ := round_trip h hmod hc (rotateHline_aligned hx h90 h270) hA
    fun lx ly hlx hly => rotateHline_contains_native_iff hx hy hlx hly
  refine ⟨t, ht, fun j hj => ?_, fun px py hpx hpy hout => ?_, hhl⟩
  · exact (hlog (x + j) y (by omega) hy).1 (by omega)
  · exact (hlog px py hpx hpy).2 hout

/-- Settles O35: the same for VLINE. -/
theorem vlineRoundTrip : Obligations.VlineRoundTrip := by
  intro s x y n c h hmod hc _ hx hy h0 h180
  obtain ⟨t, ht, hA⟩ := exec_vline_spec h x y n c
  obtain ⟨hlog, hhl⟩ := round_trip h hmod hc (rotateVline_aligned hy h0 h180) hA
    fun lx ly hlx hly => rotateVline_contains_native_iff hx hy hlx hly
  refine ⟨t, ht, fun j hj => ?_, fun px py hpx hpy hout => ?_, hhl⟩
  · exact (hlog x (y + j) hx (by omega)).1 (by omega)
  · exact (hlog px py hpx hpy).2 hout

end Sys2Proof.Machine
end

section
/-! Proofs: the decoder and the encoder undo each other, and the command words the decoder rejects (spec 30_encoding.md R87 to
R94, R206). -/

namespace Sys2Proof

open Machine

/-! ## The operation of an opcode, its fields and its payload -/

@[simp] theorem opcode_instr (o : Opcode) (f : Fields) (p : List Byte) : (o.instr f p).opcode = o := by
  cases o <;> rfl

/-- R90, R91: a well-formed operation is the one read from its own fields and payload. -/
theorem instr_fields {i : Instr} (h : i.wf = true) : i.opcode.instr i.fields i.payload = i := by
  cases i with
  | setrot r => simp [Instr.opcode, Instr.fields, Opcode.instr]
  | hline x y w c =>
    simp only [Instr.wf, Bool.and_eq_true] at h
    obtain ⟨⟨hx, hy⟩, hw⟩ := h
    simp [Instr.opcode, Instr.fields, Opcode.instr, sext16_signed16 hx, sext16_signed16 hy, sext16_signed16 hw]
  | vline x y n c =>
    simp only [Instr.wf, Bool.and_eq_true] at h
    obtain ⟨⟨hx, hy⟩, hn⟩ := h
    simp [Instr.opcode, Instr.fields, Opcode.instr, sext16_signed16 hx, sext16_signed16 hy, sext16_signed16 hn]
  | dcmode m => rfl
  | sendcmd code ar => rfl
  | sendcmddata code n bytes =>
    obtain ⟨hn, -⟩ := Bool.and_eq_true_iff.1 h
    simp only [Instr.opcode, Instr.fields, Instr.payload, Opcode.instr, toNat_count hn]
  | senddata n bytes =>
    obtain ⟨hn, -⟩ := Bool.and_eq_true_iff.1 h
    simp only [Instr.opcode, Instr.fields, Instr.payload, Opcode.instr, toNat_count hn]
  | flush => rfl
  | init rp => rfl

/-- R91 to R93: what is read from fields and a payload of the right length is well-formed. -/
theorem instr_wf {o : Opcode} {f : Fields} {p : List Byte} (hp : p.length = o.payloadCount f) :
    (o.instr f p).wf = true := by
  cases o with
  | hline => simp [Opcode.instr, Instr.wf, fitsSigned16_sext16]
  | vline => simp [Opcode.instr, Instr.wf, fitsSigned16_sext16]
  | sendcmddata => simpa [Opcode.instr, Instr.wf, fitsCount_toNat, payloadIs, Opcode.payloadCount] using hp
  | senddata => simpa [Opcode.instr, Instr.wf, fitsCount_toNat, payloadIs, Opcode.payloadCount] using hp
  | _ => rfl

/-- R87, R91: no payload byte is dropped; an operation without a payload was handed none. -/
theorem payload_instr {o : Opcode} {f : Fields} {p : List Byte} (hp : p.length = o.payloadCount f) :
    (o.instr f p).payload = p := by
  cases o with
  | sendcmddata => rfl
  | senddata => rfl
  | _ => exact (List.length_eq_zero_iff.1 hp).symm

/-- When every field the operation does not use is zero (R88, R94), each of them by name. -/
theorem Fields.unusedZero_iff (u : FieldUse) (f : Fields) :
    f.unusedZero u = true ↔
      f.z = false ∧ (u.sel = false → f.sel = 0) ∧ (u.flg = false → f.flg = false) ∧ (u.code = false → f.code = 0)
        ∧ (u.x = false → f.x = 0) ∧ (u.y = false → f.y = 0) ∧ (u.len = false → f.len = 0) := by
  rw [← Bool.not_eq_false, unusedZero_eq_false]
  simp only [not_or, not_and, ne_eq, not_not, Bool.not_eq_true]

/-- R88, R90: no field is dropped; the ones the operation does not use are zero. -/
theorem fields_instr {o : Opcode} {f : Fields} (hop : f.op = o.bits) (hz : f.unusedZero o.uses = true)
    (p : List Byte) : (o.instr f p).fields = f := by
  obtain ⟨op, sel, flg, z, code, x, y, len⟩ := f
  rw [Fields.unusedZero_iff] at hz
  cases o <;> simp_all [Opcode.instr, Instr.fields, Opcode.blank, Opcode.uses]

/-! ## What decoding answers -/

/-- A word is not reserved when `OP` is that of an operation and the fields the operation does not use are zero (R94). -/
theorem decode_ne_reserved_iff {w : CommandWord} {p : List Byte} :
    decode { word := w, payload := p } ≠ .error .reservedEncoding ↔
      ∃ o, opcodeOf (Fields.ofWord w).op = some o ∧ (Fields.ofWord w).unusedZero o.uses = true := by
  rw [ne_eq, decode_eq_reserved]
  cases opcodeOf (Fields.ofWord w).op <;> simp

/-- Of a command that is accepted: its operation is the one of `OP`, it is not reserved, and its payload has the length the
operation takes (R90, R91, R94). -/
theorem decode_eq_ok {w : CommandWord} {p : List Byte} {i : Instr} (h : decode { word := w, payload := p } = .ok i) :
    ∃ o, opcodeOf (Fields.ofWord w).op = some o ∧ (Fields.ofWord w).unusedZero o.uses = true
      ∧ p.length = o.payloadCount (Fields.ofWord w) ∧ o.instr (Fields.ofWord w) p = i := by
  obtain ⟨o, ho, hz⟩ := decode_ne_reserved_iff.1 (show decode { word := w, payload := p } ≠ _ by rw [h]; nofun)
  rw [decode_of_opcode ho hz] at h
  split_ifs at h with hp
  cases h
  exact ⟨o, ho, hz, hp, rfl⟩

/-! ## Encoding and decoding undo each other -/

/-- Each operation's command word carries its opcode and its used fields, and its payload has the length its count says. -/
theorem encodesItsFields (i : Instr) : Laws.EncodesItsFields.Statement i := by
  cases i with
  | setrot r => exact Laws.EncodesItsFields.setrot r
  | hline x y w c => exact Laws.EncodesItsFields.hline x y w c
  | vline x y n c => exact Laws.EncodesItsFields.vline x y n c
  | dcmode m => exact Laws.EncodesItsFields.dcmode m
  | sendcmd code ar => exact Laws.EncodesItsFields.sendcmd code ar
  | sendcmddata code n bytes => exact Laws.EncodesItsFields.sendcmddata code n bytes
  | senddata n bytes => exact Laws.EncodesItsFields.senddata n bytes
  | flush => exact Laws.EncodesItsFields.flush
  | init rp => exact Laws.EncodesItsFields.init rp

/-- Settles O1: the word of a well-formed operation is not reserved and its payload fits (`encodesItsFields`), so decoding answers
the operation of its fields, which is the operation itself (`instr_fields`). -/
theorem decodeOfEncodeIsTheInstruction : Obligations.DecodeOfEncodeIsTheInstruction := by
  intro i hi
  obtain ⟨hop, hz, hp⟩ := encodesItsFields i hi
  have hread : Fields.ofWord i.fields.toWord = i.fields := Fields.ofWord_toWord _
  have hdecode := decode_of_opcode (w := i.fields.toWord) (o := i.opcode) (by rw [hread, hop, opcodeOf_bits])
    (by rw [hread, hz]) i.payload
  rw [hread, if_pos ((hasLength_iff _ _).1 hp), instr_fields hi] at hdecode
  exact hdecode

/-- Settles O2: the operation read from the fields has those fields (`fields_instr`) and that payload (`payload_instr`). -/
theorem encodeOfDecodeIsTheCommand : Obligations.EncodeOfDecodeIsTheCommand := by
  rintro ⟨w, p⟩ i h
  obtain ⟨o, ho, hz, hp, rfl⟩ := decode_eq_ok h
  refine ⟨instr_wf hp, ?_⟩
  rw [encode, fields_instr (opcodeOf_eq_some.1 ho) hz, payload_instr hp, Fields.toWord_ofWord]

/-! ## Commands that are refused -/

/-- An idle block refuses the command at the head of the host's list for the reason it does not decode (R206). -/
theorem step_of_decode_error {s : State} {cmd : Command} {rest : List Command} {e : DecodeError} (hw : s.cfg.wf = true)
    (hp : s.phase = .idle) (hq : s.commands = cmd :: rest) (hd : decode cmd = .error e) :
    step s = .refused (refusalOf e) := by
  simp [step, fetch_of_wf hw, accept, hp, hq, hd]

/-- R94: the `OP` values without an operation. -/
theorem opcodeOf_eq_none {op : BitVec 4} : opcodeOf op = none ↔ op = 0 ∨ 0xA#4 ≤ op := by
  revert op
  decide

/-- The table of R90, column by column: the `OP` values that leave the field unused. -/
theorem uses_eq_false_iff (o : Opcode) :
    (o.uses.sel = false ↔ o.bits ∉ [1#4, 2#4, 3#4]) ∧ (o.uses.flg = false ↔ o.bits ∉ [4#4, 5#4, 9#4])
      ∧ (o.uses.code = false ↔ o.bits ∉ [5#4, 6#4]) ∧ (o.uses.x = false ↔ o.bits ∉ [2#4, 3#4])
      ∧ (o.uses.y = false ↔ o.bits ∉ [2#4, 3#4]) ∧ (o.uses.len = false ↔ o.bits ∉ [2#4, 3#4, 6#4, 7#4]) := by
  cases o <;> decide

/-- Settles O3: `OP` has no operation, or it has one and the table says which fields that operation leaves unused. -/
theorem reservedWordsAreRefused : Obligations.ReservedWordsAreRefused := by
  refine ⟨fun w p => ?_, fun s cmd rest hw hp hq hd => step_of_decode_error hw hp hq hd⟩
  rw [decode_eq_reserved, ← or_assoc, ← opcodeOf_eq_none]
  simp only [Fields.unusedZero_eq_false, Fields.ofWord]
  cases ho : opcodeOf (w.extractLsb' 60 4) with
  | none => simp
  | some o =>
    obtain ⟨hsel, hflg, hcode, hx, hy, hlen⟩ := uses_eq_false_iff o
    rw [opcodeOf_eq_some.1 ho]
    simp only [reduceCtorEq, false_or, Option.some.injEq, exists_eq_left', hsel, hflg, hcode, hx, hy, hlen, and_comm]

/-- Every operation has its row in opcode_table.json. -/
theorem exists_row : ∀ o : Opcode, ∃ r ∈ opcodeTable, r.opcode = o := by
  intro o
  cases o <;> decide

/-- Settles O4: a word carries the fixed bits of a row exactly when it decodes as the row's opcode (`covers_iff`). -/
theorem decodableWordsAreThoseOfTheOpcodeTable : Obligations.DecodableWordsAreThoseOfTheOpcodeTable := by
  refine ⟨fun w p => ?_, fun w p i h r hr => ?_⟩
  · rw [decode_ne_reserved_iff]
    constructor
    · rintro ⟨o, ho⟩
      obtain ⟨r, hr, rfl⟩ := exists_row o
      exact ⟨r, hr, (covers_iff hr w).2 ho⟩
    · rintro ⟨r, hr, hcovers⟩
      exact ⟨r.opcode, (covers_iff hr w).1 hcovers⟩
  · obtain ⟨o, ho, hz, -, rfl⟩ := decode_eq_ok h
    rw [covers_iff hr, opcode_instr, ho, Option.some.injEq]
    constructor
    · rintro ⟨rfl, -⟩
      rfl
    · rintro rfl
      exact ⟨rfl, hz⟩

/-- R91, R93: SENDCMDDATA (OP 6) and SENDDATA (OP 7) take `LEN` bytes, the other operations none. -/
theorem payloadCount_eq (o : Opcode) (f : Fields) :
    o.payloadCount f = if o.bits ∈ [6#4, 7#4] then f.len.toNat else 0 := by
  cases o <;> rfl

/-- Settles O5: a word that is not reserved is rejected for its payload when it does not have the counted length. -/
theorem payloadOfTheWrongLengthIsRefused : Obligations.PayloadOfTheWrongLengthIsRefused := by
  refine ⟨fun w p h => ?_, fun s cmd rest hw hp hq hd => step_of_decode_error hw hp hq hd⟩
  obtain ⟨o, ho, hz⟩ := decode_ne_reserved_iff.1 h
  have hop : w.extractLsb' 60 4 = o.bits := opcodeOf_eq_some.1 ho
  have hlen : w.extractLsb' 0 16 = (Fields.ofWord w).len := rfl
  rw [decode_of_opcode ho hz, hop, hlen, ← payloadCount_eq]
  simp

/-- Settles O6: the decoder evaluated on each example word. -/
theorem exampleWordsDecode : Obligations.ExampleWordsDecode :=
  ⟨rfl, rfl, rfl, rfl, rfl, rfl, rfl, rfl, rfl, rfl, rfl⟩

/-! ## The command placed for the next step -/

/-- A table word names an operation when its command decodes to it. -/
theorem decodeTableWord_eq_some {nbits w : Nat} {i : Instr} :
    decodeTableWord nbits w = some i ↔ decode (commandOfTableWord nbits w) = .ok i := by
  unfold decodeTableWord
  cases decode (commandOfTableWord nbits w) <;> simp

/-- Settles O8: the placed command stands at the head of an idle block's list (`step_of_decode`). -/
theorem placedCommandRunsNext : Obligations.PlacedCommandRunsNext := by
  intro s nbits w i hw hi
  rw [step_of_decode (s := s.withFetchWord nbits w) hw rfl rfl (decodeTableWord_eq_some.1 hi), panelMove_eq]
  rfl

end Sys2Proof
end

section
/-! Proofs: the range of the rotation transform (spec 40_geometry.md R119). -/

namespace Sys2Proof.Machine

theorem fitsSigned16_iff {v : Int} : fitsSigned16 v = true ↔ -32768 ≤ v ∧ v ≤ 32767 := by
  simp [fitsSigned16]

theorem Config.size_le {cfg : Config} (h : cfg.wf = true) : cfg.width ≤ 32767 ∧ cfg.height ≤ 32767 := by
  simp only [Config.wf, Bool.and_eq_true, decide_eq_true_eq] at h
  obtain ⟨⟨⟨⟨-, hw⟩, -⟩, hh⟩, -⟩ := h
  exact ⟨hw, hh⟩

/-- Settles O27: a cell of R114 reflects a coordinate at most once and moves it back by the length at most once. -/
theorem transformFitsEighteenBits : Obligations.TransformFitsEighteenBits := by
  intro cfg rot x y n hcfg hx hy hn
  rw [fitsSigned16_iff] at hx hy hn
  obtain ⟨hw, hh⟩ := Config.size_le hcfg
  simp only [abs_lt]
  cases rot <;>
    simp only [rotateHline, rotateVline, Run.swap, Run.reflectX, Run.reflectY, Run.backX, Run.backY] <;> omega

end Sys2Proof.Machine
end

section
/-! Proofs: a byte on the bus, and the framer's operations with IOEN set (spec 41_framer.md R150 to R156, 30_encoding.md R97). -/

namespace Sys2Proof.Machine

/-- Settles O43: the list of bit numbers is `7 - j` for `j` from 0 to 7. -/
theorem bytesGoOutMostSignificantBitFirst : Obligations.BytesGoOutMostSignificantBitFirst := by
  intro b
  have hlist : bitsMsbFirst b = (List.range 8).map fun j => b.getLsbD (7 - j) := rfl
  rw [hlist]
  exact ⟨by simp, fun j hj => by simp [hj]⟩

section
variable {s : State} (h : s.ioen = true)
include h

theorem exec_dcmode_of_ioen (m : Level) : exec (.dcmode m) s = .next (pin .dc m s) :=
  whenConfigured_of_ioen h fun s => .next (pin .dc m s)

/-- SENDCMD without release leaves the frame open (R153). -/
theorem exec_sendcmd_of_ioen (code : Byte) : exec (.sendcmd code false) s = .next (commandByte code s) :=
  whenConfigured_of_ioen h fun s => .next (commandByte code s)

theorem exec_sendcmddata_of_ioen (code : Byte) (bytes : List Byte) :
    exec (.sendcmddata code bytes.length bytes) s = .next (sendAndRelease bytes (openDataFrame code s)) :=
  (if_pos ((hasLength_iff _ _).2 rfl)).trans (whenConfigured_of_ioen h _)

theorem exec_senddata_of_ioen (bytes : List Byte) :
    exec (.senddata bytes.length bytes) s = .next (sendAndRelease bytes s) :=
  (if_pos ((hasLength_iff _ _).2 rfl)).trans (whenConfigured_of_ioen h _)

end

/-- Settles O50: an opened data frame is the command byte, then data mode; IOEN stays set, so no part is refused. -/
theorem sendcmddataEqualsItsThreeParts : Obligations.SendcmddataEqualsItsThreeParts := by
  intro code bytes s h
  have hcmd : (commandByte code s).ioen = true := by rw [commandByte_eq, h]
  have hdata : (pin .dc true (commandByte code s)).ioen = true := hcmd
  refine ⟨_, exec_sendcmddata_of_ioen h code bytes, ?_⟩
  rw [exec_sendcmd_of_ioen h, andThen_next, exec_dcmode_of_ioen hcmd, andThen_next, exec_senddata_of_ioen hdata,
    openDataFrame]

end Sys2Proof.Machine
end

section
/-! Proofs: the colour rules as mask operations, in one plane each (spec 40_geometry.md R116 to R118). -/

namespace Sys2Proof.Machine

/-! ## The mask of a read-modify-write -/

/-- The bits of a plane that a read-modify-write touches (R116, R117). -/
def Lanes.mask : Lanes → Plane → Word
  | .pixel k, p => oneBit (p.bit k)
  | .block, .bw => 0x00FF#16
  | .block, .hl => 0xFF00#16

section
variable (l : Lanes) (v : Word)

theorem applyLanes_black : applyLanes .black l v = v ||| l.mask .bw := by cases l <;> rfl
theorem applyLanes_white : applyLanes .white l v = v &&& ~~~l.mask .bw := by cases l <;> rfl
theorem applyLanes_invert : applyLanes .invert l v = v ^^^ l.mask .bw := by cases l <;> rfl
theorem applyLanes_highlight : applyLanes .highlight l v = v ||| l.mask .hl := by cases l <;> rfl

/-- INVERT is an involution (R118). -/
theorem applyLanes_invert_invert : applyLanes .invert l (applyLanes .invert l v) = v := by
  rw [applyLanes_invert, applyLanes_invert, BitVec.xor_assoc, BitVec.xor_self, BitVec.xor_zero]

/-- Every other colour is idempotent (R118). -/
theorem applyLanes_idem {c : Colour} (hc : c ≠ .invert) : applyLanes c l (applyLanes c l v) = applyLanes c l v := by
  cases c with
  | black => rw [applyLanes_black, applyLanes_black, BitVec.or_assoc, BitVec.or_self]
  | white => rw [applyLanes_white, applyLanes_white, BitVec.and_assoc, BitVec.and_self]
  | invert => exact absurd rfl hc
  | highlight => rw [applyLanes_highlight, applyLanes_highlight, BitVec.or_assoc, BitVec.or_self]

/-- Read-modify-writes of one colour commute, whatever they touch. -/
theorem applyLanes_comm (c : Colour) (l' : Lanes) : applyLanes c l (applyLanes c l' v) = applyLanes c l' (applyLanes c l v) := by
  cases c with
  | black => simp only [applyLanes_black]; ac_rfl
  | white => simp only [applyLanes_white]; ac_rfl
  | invert => simp only [applyLanes_invert]; ac_rfl
  | highlight => simp only [applyLanes_highlight]; ac_rfl

end

/-- A pixel's bits in the two planes are apart, and so are a block's (R51). -/
theorem Lanes.mask_hl_and_not_mask_bw {l : Lanes} (hl : ∀ k, l = .pixel k → k ≤ 7) :
    l.mask .hl &&& ~~~l.mask .bw = l.mask .hl := by
  have hpixel : ∀ k ≤ 7, oneBit (15 - k) &&& ~~~oneBit (7 - k) = oneBit (15 - k) := by decide
  cases l with
  | pixel k => exact hpixel k (hl k rfl)
  | block => rfl

/-- HIGHLIGHT commutes with every colour: the others work in the other plane (R118). -/
theorem applyLanes_highlight_comm (c : Colour) {l : Lanes} (hl : ∀ k, l = .pixel k → k ≤ 7) (v : Word) :
    applyLanes .highlight l (applyLanes c l v) = applyLanes c l (applyLanes .highlight l v) := by
  have hapart := Lanes.mask_hl_and_not_mask_bw hl
  cases c with
  | black => simp only [applyLanes_black, applyLanes_highlight]; ac_rfl
  | white =>
    simp only [applyLanes_white, applyLanes_highlight]
    rw [BitVec.and_or_distrib_right, hapart]
  | invert =>
    simp only [applyLanes_invert, applyLanes_highlight]
    refine BitVec.eq_of_getElem_eq fun i hi => ?_
    rw [← hapart]
    cases hbit : (l.mask .bw)[i] <;> simp [hbit]
  | highlight => rfl

/-- Settles O22: BLACK sets, WHITE clears and INVERT flips the bits of one mask, so the laws hold bit by bit. -/
theorem colourLaws : Obligations.ColourLaws := by
  intro v l hl
  refine ⟨applyLanes_invert_invert l v, ?_, ?_, ?_, ?_, applyLanes_idem l v (by decide),
    fun c => applyLanes_highlight_comm c hl v⟩
  all_goals
    simp only [applyLanes_black, applyLanes_white, applyLanes_invert]
    refine BitVec.eq_of_getElem_eq fun i hi => ?_
    cases hbit : (l.mask .bw)[i] <;> simp [hbit]

/-! ## One bit, and eight -/

theorem getLsbD_oneBit {n : Nat} (hn : n < 16) (i : Nat) : (oneBit n).getLsbD i = decide (i = n) := by
  have htwoPow := BitVec.getLsbD_twoPow (w := 16) n i
  simpa [BitVec.twoPow, oneBit, hn, eq_comm] using htwoPow

/-- Settles O20: the mask of a bit operation has the one bit. -/
theorem applyBitFollowsTheColourRule : Obligations.ApplyBitFollowsTheColourRule := by
  intro v k i hk hi
  have hbw : (oneBit (7 - k)).getLsbD i = decide (i = 7 - k) := getLsbD_oneBit (by omega) i
  have hhl : (oneBit (15 - k)).getLsbD i = decide (i = 15 - k) := getLsbD_oneBit (by omega) i
  refine ⟨?_, ?_, ?_, ?_⟩
  · rw [applyBit, BitVec.getLsbD_or, hbw]
    split_ifs with h <;> simp [h]
  · rw [applyBit, BitVec.getLsbD_and, BitVec.getLsbD_not, hbw]
    split_ifs with h <;> simp [h, hi]
  · rw [applyBit, BitVec.getLsbD_xor, hbw]
    split_ifs with h <;> simp [h]
  · rw [applyBit, BitVec.getLsbD_or, hhl]
    split_ifs with h <;> simp [h]

/-- Settles O21: the eight masks of the bit operations put together are the mask of the block operation. -/
theorem applyBlockIsEightApplyBits : Obligations.ApplyBlockIsEightApplyBits := by
  refine fun v => ⟨rfl, rfl, rfl, rfl, fun c => ?_⟩
  cases c with
  | black => simp only [List.foldl, applyBit, BitVec.or_assoc]; rfl
  | white => simp only [List.foldl, applyBit, BitVec.and_assoc]; rfl
  | invert => simp only [List.foldl, applyBit, BitVec.xor_assoc]; rfl
  | highlight => simp only [List.foldl, applyBit, BitVec.or_assoc]; rfl

end Sys2Proof.Machine
end

section
/-! Proofs: the transform, the clamp and the draws of the geometry engine (spec 40_geometry.md R110 to R135). -/

namespace Sys2Proof.Machine

/-! ## The transform and the clamp -/

/-- Settles O23: the meaning of SETROT is this update. -/
theorem setrotWritesOnlyRot : Obligations.SetrotWritesOnlyRot := fun _ _ => rfl

/-- Settles O24: each cell's steps are linear in the operands and the dimensions. -/
theorem transformHasTheClosedForm : Obligations.TransformHasTheClosedForm := by
  intro cfg x y n
  simp only [rotateHline, rotateVline, Run.swap, Run.reflectX, Run.reflectY, Run.backX, Run.backY, Axis.other, Run.mk.injEq,
    true_and, and_true]
  omega

/-- Settles O26: what the clamp keeps, its length and its range. -/
theorem clampKeepsTheOnPanelPart : Obligations.ClampKeepsTheOnPanelPart := fun bound start len =>
  ⟨mem_clampSpan_iff bound start len, clampSpan_len_le bound start len, fun _ => clampSpan_range bound start len⟩

/-! ## Draws that touch no word -/

/-- A draw whose colour is dropped, or that has no access, leaves the whole state (R111, R133). -/
theorem gatedRun_of_none {c : Colour} {acc : List Access} {s : State} (h : highlightDropped s.cfg c = true ∨ acc = []) :
    (if highlightDropped s.cfg c then .next s else applyAccesses c acc s : Out) = .next s := by
  split_ifs with hdropped
  · rfl
  · rw [h.resolve_left hdropped, applyAccesses]

/-- Settles O30: the colour gate drops the run. -/
theorem highlightWithoutThePlaneIsDropped : Obligations.HighlightWithoutThePlaneIsDropped := by
  intro s x y n h
  have hdropped := (highlightDropped_iff s.cfg .highlight).2 ⟨rfl, h⟩
  exact ⟨gatedRun_of_none (.inl hdropped), gatedRun_of_none (.inl hdropped)⟩

/-- The clamp leaves nothing of a run without length, or off the panel along its axis (R123). -/
theorem clampSpan_len_nonpos {bound start len : Int} (h : len ≤ 0 ∨ start + len ≤ 0 ∨ bound ≤ start) :
    (clampSpan bound start len).2 ≤ 0 := by
  unfold clampSpan
  simp only
  split_ifs <;> omega

/-- The run has no length or lies off the panel in one of the axes. -/
def Run.Misses (cfg : Config) (r : Run) : Prop :=
  match r.axis with
  | .horizontal => r.len ≤ 0 ∨ r.y < 0 ∨ cfg.height ≤ r.y ∨ r.x + r.len ≤ 0 ∨ cfg.width ≤ r.x
  | .vertical => r.len ≤ 0 ∨ r.x < 0 ∨ cfg.width ≤ r.x ∨ r.y + r.len ≤ 0 ∨ cfg.height ≤ r.y

/-- Such a run touches no word (R122, R123, R127). -/
theorem Run.Misses.accesses_nil {cfg : Config} {r : Run} (h : r.Misses cfg) : r.accesses cfg = [] := by
  obtain ⟨axis, x, y, len⟩ := r
  cases axis with
  | horizontal =>
    have hspan := @clampSpan_len_nonpos cfg.width x len
    simp only [Run.Misses] at h
    have hnone : y < 0 ∨ (cfg.height : Int) ≤ y ∨ (clampSpan cfg.width x len).2 ≤ 0 := by omega
    exact hrunAccesses_nil hnone
  | vertical =>
    have hspan := @clampSpan_len_nonpos cfg.height y len
    simp only [Run.Misses] at h
    have hnone : x < 0 ∨ (cfg.width : Int) ≤ x ∨ (clampSpan cfg.height y len).2 ≤ 0 := by omega
    exact vrunAccesses_nil hnone

/-- The transform of a logical run off the logical panel is off the native one (R135, R133). -/
theorem rotateHline_misses {cfg : Config} {rot : Rotation} {x y n : Int}
    (h : n ≤ 0 ∨ y < 0 ∨ (logicalHeight cfg rot : Int) ≤ y ∨ x + n ≤ 0 ∨ (logicalWidth cfg rot : Int) ≤ x) :
    (rotateHline cfg rot x y n).Misses cfg := by
  cases rot <;>
    simp only [logicalWidth, logicalHeight, rotateHline, Run.Misses, Run.swap, Run.reflectX, Run.reflectY, Run.backX, Run.backY,
      Axis.other] at h ⊢ <;>
    omega

/-- The same for VLINE. -/
theorem rotateVline_misses {cfg : Config} {rot : Rotation} {x y n : Int}
    (h : n ≤ 0 ∨ x < 0 ∨ (logicalWidth cfg rot : Int) ≤ x ∨ y + n ≤ 0 ∨ (logicalHeight cfg rot : Int) ≤ y) :
    (rotateVline cfg rot x y n).Misses cfg := by
  cases rot <;>
    simp only [logicalWidth, logicalHeight, rotateVline, Run.Misses, Run.swap, Run.reflectX, Run.reflectY, Run.backX, Run.backY,
      Axis.other] at h ⊢ <;>
    omega

/-- Settles O31: the native run misses the panel, so it has no access. -/
theorem runsOffThePanelLeaveTheStateUnchanged : Obligations.RunsOffThePanelLeaveTheStateUnchanged := fun _ _ _ _ _ =>
  ⟨fun h => gatedRun_of_none (.inr (rotateHline_misses h).accesses_nil),
    fun h => gatedRun_of_none (.inr (rotateVline_misses h).accesses_nil)⟩

/-! ## The whole effect of a draw -/

/-- A word at which no read-modify-write happens keeps its value. -/
theorem wordAfter_of_untouched {c : Colour} {acc : List Access} {a : Nat} (h : ∀ m ∈ acc, m.addr ≠ a) (v : Word) :
    wordAfter c acc a v = v := by
  induction acc with
  | nil => rfl
  | cons x rest ih =>
    rw [wordAfter_cons, if_neg (h x List.mem_cons_self)]
    exact ih fun m hm => h m (List.mem_cons_of_mem x hm)

theorem AccessesApplied.fbPeek_of_untouched {c : Colour} {acc : List Access} {s t : State} (h : AccessesApplied c acc s t)
    {a : Nat} (ha : ∀ m ∈ acc, m.addr ≠ a) : fbPeek t a = fbPeek s a := by
  rw [h.words, funext (wordAfter_of_untouched ha), Option.map_id']

/-- The colour gate of R111 as the statements about draws write it. -/
theorem gatedAccesses_eq (cfg : Config) (c : Colour) (acc : List Access) :
    (if highlightDropped cfg c then [] else acc) = if c = .highlight ∧ cfg.hasHl = false then [] else acc :=
  if_congr (highlightDropped_iff cfg c) rfl rfl

/-- What a draw leaves, as the statements about HLINE and VLINE say it. -/
theorem AccessesApplied.effect {c : Colour} {acc : List Access} {s t : State} (h : AccessesApplied c acc s t) :
    SameButStore s t
      ∧ (∀ a, fbPeek t a = (fbPeek s a).map (wordAfter c acc a))
      ∧ (∀ a, (∀ m ∈ acc, m.addr ≠ a) → fbPeek t a = fbPeek s a)
      ∧ (s.cfg.store = .resident → t.xm = s.xm ∧ t.trace = s.trace)
      ∧ (s.cfg.store = .external → t.fb = s.fb
          ∧ (∀ b, storesByte s.cfg acc b = false → t.xm.read b = s.xm.read b)
          ∧ t.trace = s.trace ++ accessEvents s.cfg c acc (fun a => s.xm.read16 (wordBase s.cfg a))) :=
  ⟨h.frame, h.words, fun _ ha => h.fbPeek_of_untouched ha, h.resident, fun hs =>
    let ⟨hfb, _, hbytes, htrace⟩ := h.external hs
    ⟨hfb, hbytes, htrace⟩⟩

/-- Settles O28: the accesses of a run all exist, so it completes and leaves what they make of the store. -/
theorem hlineDrawsItsRun : Obligations.HlineDrawsItsRun := by
  rintro s x y w c _ h rfl
  obtain ⟨t, ht, hA⟩ := exec_hline_spec h x y w c
  rw [gatedAccesses_eq] at hA
  exact ⟨t, ht, hA.effect⟩

/-- Settles O29: the same for VLINE. -/
theorem vlineDrawsItsRun : Obligations.VlineDrawsItsRun := by
  rintro s x y n c _ h rfl
  obtain ⟨t, ht, hA⟩ := exec_vline_spec h x y n c
  rw [gatedAccesses_eq] at hA
  exact ⟨t, ht, hA.effect⟩

/-! ## The same run twice -/

section
variable (c : Colour) (acc : List Access) (a : Nat)

/-- A read-modify-write of the same colour may as well come before a run. -/
theorem applyLanes_wordAfter (l : Lanes) (v : Word) :
    applyLanes c l (wordAfter c acc a v) = wordAfter c acc a (applyLanes c l v) := by
  induction acc generalizing v with
  | nil => rfl
  | cons x rest ih =>
    rw [wordAfter_cons, ih, wordAfter_cons]
    split_ifs
    · rw [applyLanes_comm]
    · rfl

/-- Of a run done twice, the two first read-modify-writes may come first. -/
theorem wordAfter_cons_twice (x : Access) (v : Word) :
    wordAfter c (x :: acc) a (wordAfter c (x :: acc) a v)
      = wordAfter c acc a (wordAfter c acc a
          (if x.addr = a then applyLanes c x.lanes (applyLanes c x.lanes v) else v)) := by
  simp only [wordAfter_cons]
  split_ifs
  · rw [applyLanes_wordAfter]
  · rfl

/-- A run of INVERT done twice restores every word. -/
theorem wordAfter_invert_twice (v : Word) : wordAfter .invert acc a (wordAfter .invert acc a v) = v := by
  induction acc generalizing v with
  | nil => rfl
  | cons x rest ih => rw [wordAfter_cons_twice, ih, applyLanes_invert_invert, ite_self]

/-- A run of another colour done twice is the run done once. -/
theorem wordAfter_idem {c : Colour} (hc : c ≠ .invert) (v : Word) :
    wordAfter c acc a (wordAfter c acc a v) = wordAfter c acc a v := by
  induction acc generalizing v with
  | nil => rfl
  | cons x rest ih => rw [wordAfter_cons_twice, ih, applyLanes_idem _ _ hc, wordAfter_cons]

end

/-- The accesses of a draw are the same in every state with the same parameters and rotation (R112, R113). -/
theorem exec_draw_spec {i : Instr} {c : Colour} (hi : (∃ x y n, i = .hline x y n c) ∨ ∃ x y n, i = .vline x y n c) :
    ∃ acc : Config → Rotation → List Access, ∀ s, s.wf →
      ∃ t, exec i s = .next t ∧ AccessesApplied c (acc s.cfg s.rot) s t := by
  rcases hi with ⟨x, y, n, rfl⟩ | ⟨x, y, n, rfl⟩
  · exact ⟨fun cfg rot => if highlightDropped cfg c then [] else hlineAccesses cfg rot x y n,
      fun _ h => exec_hline_spec h x y n c⟩
  · exact ⟨fun cfg rot => if highlightDropped cfg c then [] else vlineAccesses cfg rot x y n,
      fun _ h => exec_vline_spec h x y n c⟩

/-- Settles O36: the second draw runs the accesses of the first, and read-modify-writes of one colour commute. -/
theorem sameRunDrawnTwice : Obligations.SameRunDrawnTwice := by
  intro i c s t u h hi ht hu
  obtain ⟨acc, hdraw⟩ := exec_draw_spec hi
  obtain ⟨t, ht', hA⟩ := hdraw s h
  cases ht'.symm.trans ht
  obtain ⟨u, hu', hB⟩ := hdraw t hA.wf
  cases hu'.symm.trans hu
  have hrot : t.rot = s.rot := by rw [hA.frame]
  rw [hA.cfg_eq, hrot] at hB
  generalize acc s.cfg s.rot = run at hA hB
  have hwords : ∀ a, fbPeek u a = (fbPeek s a).map fun v => wordAfter c run a (wordAfter c run a v) := fun a => by
    rw [hB.words, hA.words, Option.map_map]; rfl
  refine ⟨fun hc a => ?_, fun hc a => ?_⟩
  · subst hc
    simp only [hwords, wordAfter_invert_twice, Option.map_id']
  · simp only [hwords, wordAfter_idem _ _ hc, hA.words]

end Sys2Proof.Machine
end

section
/-! Proofs: the whole effect of each framer operation, the gate of IOEN, where chip-select stands at the end (spec 41_framer.md R152 to
R159), and the silence of the pins before the first INIT (70_reset_and_hazards.md R224). -/

namespace Sys2Proof.Machine

/-! ## The framer with IOEN set -/

/-- SENDCMD with release closes the frame that its command byte opens (R153). -/
theorem exec_sendcmd_release_of_ioen {s : State} (h : s.ioen = true) (code : Byte) :
    exec (.sendcmd code true) s = .next (pin .cs true (commandByte code s)) :=
  whenConfigured_of_ioen h fun s => .next (pin .cs true (commandByte code s))

theorem pin_cs_eq (v : Level) (s : State) : pin .cs v s = { s with cs := v, trace := s.trace ++ [.pin .cs v] } := rfl

theorem pin_dc_eq (v : Level) (s : State) : pin .dc v s = { s with dc := v, trace := s.trace ++ [.pin .dc v] } := rfl

/-- Settles O44: DCMODE is one pin write. -/
theorem dcmodeWritesOnlyDc : Obligations.DcmodeWritesOnlyDc := by
  intro m s h
  rw [exec_dcmode_of_ioen h, pin_dc_eq]

/-- Settles O45: the command byte, then with `ar = 1` one more pin write. -/
theorem sendcmdSendsOneCommandByte : Obligations.SendcmdSendsOneCommandByte := by
  intro code s h
  rw [exec_sendcmd_release_of_ioen h, exec_sendcmd_of_ioen h, pin_cs_eq, commandByte_eq, List.append_assoc]
  exact ⟨rfl, rfl⟩

/-- Settles O46: the opened data frame, then its payload and the release. -/
theorem sendcmddataSendsOneFrame : Obligations.SendcmddataSendsOneFrame := by
  intro code bytes s h
  rw [exec_sendcmddata_of_ioen h, sendAndRelease_eq, openDataFrame_eq]

/-- Settles O47: the payload and the release, with no pin written before. -/
theorem senddataSendsAndReleases : Obligations.SenddataSendsAndReleases := by
  intro bytes s h
  rw [exec_senddata_of_ioen h, sendAndRelease_eq]

/-! ## The framer with IOEN clear -/

/-- Settles O48: the gate, once the payload has the counted length. -/
theorem busOperationsNeedInit : Obligations.BusOperationsNeedInit := by
  intro s m ar code bytes h
  have hlen : hasLength bytes bytes.length = true := (hasLength_iff _ _).2 rfl
  exact ⟨exec_refused_of_not_ioen rfl rfl h, exec_refused_of_not_ioen rfl rfl h, exec_refused_of_not_ioen rfl hlen h,
    exec_refused_of_not_ioen rfl hlen h, exec_refused_of_not_ioen rfl rfl h⟩

/-! ## Chip-select at the end -/

/-- The last event of a plane pass releases chip-select (R171, R174). -/
theorem planePass_releases {cmd : Byte} {p : Plane} {s t : State} (h : planePass cmd p s = .next t) : t.cs = true := by
  obtain ⟨buf, data, rfl, -⟩ := planePass_frame h
  rfl

/-- A flush ends with its last plane pass, the highlight one when there is a command for it (R170). -/
theorem execFlush_releases {s t : State} (h : execFlush s = .next t) : t.cs = true := by
  obtain ⟨-, hrun⟩ := whenConfigured_eq_next.1 h
  obtain ⟨u, hbw, hrest⟩ := andThen_eq_next.1 hrun
  split at hrest
  · cases hrest
    exact planePass_releases hbw
  · exact planePass_releases hrest

/-- Settles O49: CS in the state each operation leaves. -/
theorem chipSelectAtTheEndOfAnOperation : Obligations.ChipSelectAtTheEndOfAnOperation := by
  refine fun s t => ⟨fun code h => ?_, fun code h => ?_, fun code n bytes h => ?_, fun n bytes h => ?_, execFlush_releases,
    fun m h => ?_⟩
  · rw [execSendcmd_next h, if_pos rfl, pin_cs_eq]
  · rw [execSendcmd_next h, if_neg Bool.false_ne_true, commandByte_eq]
  · rw [execSendcmddata_next h]
  · rw [execSenddata_next h]
  · rw [execDcmode_next h]

/-! ## Before the first INIT -/

/-- An operation that leaves IOEN 0 found it 0, left the phase, and added no event that uses a pin (`exec_trace`). -/
theorem exec_keeps_quietBeforeInit {i : Instr} {s t : State} (hs : s.quietBeforeInit) (h : exec i s = .next t) :
    t.quietBeforeInit := by
  intro ht
  obtain ⟨es, htrace, -, hunused, hback⟩ := exec_trace h
  obtain ⟨hioen, hphase⟩ := hback ht
  obtain ⟨hidle, hquiet⟩ := hs hioen
  refine ⟨hphase.trans hidle, fun e he => ?_⟩
  rw [htrace] at he
  rcases List.mem_append.1 he with hold | hnew
  · exact hquiet e hold
  · exact hunused ht e hnew

/-- Settles O14, by the cases of a step. Not by `step_keeps`: sampling INIT's wait alone can start a hold, and what excludes it is
that a step samples only in the wait, in which a quiet state has IOEN set. -/
theorem stepKeepsQuietBeforeInit : Obligations.StepKeepsQuietBeforeInit := by
  intro s t hs h
  have hmoved : (panelMove s).quietBeforeInit := by
    rw [panelMove_eq]
    exact hs
  rcases step_cases s with ⟨r, hr⟩ | ⟨u, hu, hcase⟩ | ⟨i, _, rest, -, -, -, -, hrun⟩
  · rw [hr] at h
    cases h
  · rw [hu] at h
    cases h
    rcases hcase with rfl | ⟨rfl, hwait⟩
    · exact hmoved
    · intro hioen
      have hs' : s.ioen = false := by rwa [busyWait_eq, panelMove_ioen] at hioen
      obtain ⟨hidle, -⟩ := hs hs'
      rw [hidle] at hwait
      cases hwait
  · have htaken : ((panelMove s).setCommands rest).quietBeforeInit := hmoved
    exact exec_keeps_quietBeforeInit htaken (hrun ▸ h)

end Sys2Proof.Machine
end

section
/-! Proofs: FLUSH (spec 42_flush.md R170 to R175): what it sends from either store, and that nothing but a draw changes it. -/

namespace Sys2Proof.Machine

/-! ## The frame of a plane, whatever the store -/

/-- The state's framebuffer, in either store, is the list of words `ws`. -/
def State.Holds (s : State) (ws : List Word) : Prop :=
  ws.length = s.cfg.words ∧ ∀ a, a < s.cfg.words → fbPeek s a = ws[a]?

/-- What the panel sees of a plane pass over the words `ws`: the command byte, data mode, the plane's byte of each word, release
(R171). -/
def frameEvents (cmd : Byte) (p : Plane) (ws : List Word) : List Event :=
  [.pin .cs false, .pin .dc false, .tx cmd, .pin .dc true] ++ (ws.map (planeByte p)).map .tx ++ [.pin .cs true]

theorem frameEvents_onBus (cmd : Byte) (p : Plane) (ws : List Word) :
    (frameEvents cmd p ws).filter Event.onBus = frameEvents cmd p ws := by
  have hdata : ((ws.map (planeByte p)).map Event.tx).filter Event.onBus = (ws.map (planeByte p)).map .tx :=
    List.filter_eq_self.2 (List.forall_mem_map.2 fun _ _ => rfl)
  rw [frameEvents, List.filter_append, List.filter_append, hdata]
  rfl

/-- A frame ends with the release of chip-select. -/
theorem frameEvents_getLast? (cmd : Byte) (p : Plane) (ws : List Word) :
    (frameEvents cmd p ws).getLast? = some (.pin .cs true) :=
  List.getLast?_concat

/-- R173: a frame is one command byte and a data byte for each word. -/
theorem frameEvents_transfers (cmd : Byte) (p : Plane) (ws : List Word) :
    ((frameEvents cmd p ws).filter Event.isTx).length = ws.length + 1 := by
  have hdata : ((ws.map (planeByte p)).map Event.tx).filter Event.isTx = (ws.map (planeByte p)).map .tx :=
    List.filter_eq_self.2 (List.forall_mem_map.2 fun _ _ => rfl)
  rw [frameEvents, List.filter_append, List.filter_append, hdata]
  simp [List.filter_cons, Event.isTx]

/-- The panel's reading of a frame; what follows it finds CS and DC at 1. -/
theorem sentBytes_frameEvents (cs dc : Level) (cmd : Byte) (p : Plane) (ws : List Word) (rest : List Event) :
    sentBytes cs dc (frameEvents cmd p ws ++ rest)
      = { cs := false, dc := false, byte := cmd } :: ws.map (fun v => { cs := false, dc := true, byte := planeByte p v })
        ++ sentBytes true true rest := by
  simp only [frameEvents, List.append_assoc, List.cons_append, List.nil_append, sentBytes]
  rw [sentBytes_txs, List.map_map]
  rfl

/-- The panel sees pin writes and transfers, and nothing else of a trace (R32, R34). -/
theorem sentBytes_onBus (cs dc : Level) (es : List Event) : sentBytes cs dc (es.filter Event.onBus) = sentBytes cs dc es := by
  induction es generalizing cs dc with
  | nil => rfl
  | cons e rest ih =>
    cases e with
    | pin q v => cases q <;> simp [List.filter_cons, Event.onBus, sentBytes, ih]
    | _ => simp [List.filter_cons, Event.onBus, sentBytes, ih]

theorem transfers_onBus (es : List Event) : (es.filter Event.onBus).filter Event.isTx = es.filter Event.isTx := by
  rw [List.filter_filter]
  refine List.filter_congr fun e _ => ?_
  cases e <;> rfl

/-! ## A plane pass, resident and external -/

/-- A resident machine holds its array. -/
theorem holds_fb {s : State} (h : s.wf) (hs : s.cfg.store = .resident) : s.Holds s.fb :=
  ⟨h.fb_length hs, fun _ ha => by rw [fbPeek_resident hs ha]⟩

theorem State.Holds.eq_fb {s : State} {ws : List Word} (hw : s.Holds ws) (h : s.wf) (hs : s.cfg.store = .resident) :
    ws = s.fb := by
  obtain ⟨hlen, hpeek⟩ := hw
  refine List.ext_getElem? fun a => ?_
  by_cases ha : a < s.cfg.words
  · rw [← hpeek a ha, fbPeek_resident hs ha]
  · rw [List.getElem?_eq_none (by omega), List.getElem?_eq_none (by rw [h.fb_length hs]; omega)]

theorem planeEvents_resident {s : State} (hs : s.cfg.store = .resident) (cmd : Byte) (p : Plane) :
    planeEvents cmd p s = frameEvents cmd p s.fb := by
  simp only [planeEvents, planeData, hs, frameEvents]

/-- R54, R55: a plane's byte of a word of the external memory is one of the two bytes the word is stored in. -/
theorem planeByte_read16 (p : Plane) (m : Memory) (b : Nat) : planeByte p (m.read16 b) = m.read (b + p.byteOffset) := by
  cases p with
  | bw => exact lo8_joinBytes _ _
  | hl => exact hi8_joinBytes _ _

/-- The words of an external machine are those of its memory, in index order. -/
theorem State.Holds.eq_read16 {s : State} {ws : List Word} (hw : s.Holds ws) (hs : s.cfg.store = .external) :
    ws = (List.range s.cfg.words).map fun a => s.xm.read16 (wordBase s.cfg a) := by
  obtain ⟨hlen, hpeek⟩ := hw
  refine List.ext_getElem? fun a => ?_
  by_cases ha : a < s.cfg.words
  · rw [← hpeek a ha, fbPeek_external hs ha]
    simp [ha]
  · rw [List.getElem?_eq_none (by omega), List.getElem?_eq_none (by simpa using ha)]

/-- The loop of R174 ends with the last word: all chunks together are `2N` bytes. -/
theorem words_le_chunks {cfg : Config} (hp : cfg.pageOk = true) : 2 * cfg.words ≤ chunkCount cfg * cfg.pageBytes := by
  simp only [Config.pageOk, Bool.and_eq_true, decide_eq_true_eq] at hp
  obtain ⟨hpage, -⟩ := hp
  exact Nat.le_of_not_lt ((lt_chunkCount_iff hpage _).not.1 (Nat.lt_irrefl _))

/-- R175: with its chunk reads left out, an external pass is the frame of the words its memory holds. -/
theorem planeEvents_external_onBus {s : State} {ws : List Word} (h : s.wf) (hs : s.cfg.store = .external) (hw : s.Holds ws)
    (cmd : Byte) (p : Plane) : (planeEvents cmd p s).filter Event.onBus = frameEvents cmd p ws := by
  have hpage := Config.pageOk_of_wf h.1 hs
  have hdata : ((List.range (chunkCount s.cfg)).flatMap (chunkEvents p s.cfg s.xm)).filter Event.onBus
      = (ws.map (planeByte p)).map .tx := by
    rw [onBus_chunks p hpage s.xm _ le_rfl, min_eq_right (words_le_chunks hpage), Nat.mul_div_cancel_left _ (by omega),
      hw.eq_read16 hs, List.map_map, List.map_map]
    refine List.map_congr_left fun a _ => ?_
    simp only [Function.comp_apply, planeByte_read16, wordBase, Nat.add_assoc]
  rw [planeEvents_external h hs, passEvents, List.filter_append, List.filter_append, hdata]
  rfl

theorem planeEvents_external_chunkReads {s : State} (h : s.wf) (hs : s.cfg.store = .external) (cmd : Byte) (p : Plane) :
    ((planeEvents cmd p s).filter Event.isChunkRead).length = chunkCount s.cfg := by
  rw [planeEvents_external h hs, passEvents, List.filter_append, List.filter_append, List.length_append, List.length_append,
    chunk_reads]
  simp [Event.isChunkRead]

/-- In either store, a plane pass shows the panel the frame of the framebuffer's words. -/
theorem planeEvents_onBus {s : State} {ws : List Word} (h : s.wf) (hw : s.Holds ws) (cmd : Byte) (p : Plane) :
    (planeEvents cmd p s).filter Event.onBus = frameEvents cmd p ws := by
  cases hs : s.cfg.store with
  | resident => rw [planeEvents_resident hs, frameEvents_onBus, hw.eq_fb h hs]
  | external => exact planeEvents_external_onBus h hs hw cmd p

/-! ## The whole flush -/

/-- The second pass of a flush: none without a highlight command, whatever HAS_HL is (R172). -/
def highlightEvents (s : State) : List Event :=
  match s.cfg.cmdHl with
  | none => []
  | some cmd => planeEvents cmd .hl s

/-- What the panel sees of the second pass over the words `ws`. -/
def highlightFrame (cfg : Config) (ws : List Word) : List Event :=
  match cfg.cmdHl with
  | none => []
  | some cmd => frameEvents cmd .hl ws

/-- The events of a flush (R170). -/
def flushEvents (s : State) : List Event := planeEvents s.cfg.cmdBw .bw s ++ highlightEvents s

theorem highlightEvents_resident {s : State} (hs : s.cfg.store = .resident) : highlightEvents s = highlightFrame s.cfg s.fb := by
  simp only [highlightEvents, highlightFrame, planeEvents_resident hs]

theorem highlightEvents_onBus {s : State} {ws : List Word} (h : s.wf) (hw : s.Holds ws) :
    (highlightEvents s).filter Event.onBus = highlightFrame s.cfg ws := by
  unfold highlightEvents highlightFrame
  cases s.cfg.cmdHl with
  | none => rfl
  | some cmd => exact planeEvents_onBus h hw cmd .hl

theorem highlightEvents_chunkReads {s : State} (h : s.wf) (hs : s.cfg.store = .external) :
    ((highlightEvents s).filter Event.isChunkRead).length = if s.cfg.cmdHl = none then 0 else chunkCount s.cfg := by
  unfold highlightEvents
  cases s.cfg.cmdHl with
  | none => rfl
  | some cmd => exact planeEvents_external_chunkReads h hs cmd .hl

theorem flushEvents_resident {s : State} (hs : s.cfg.store = .resident) :
    flushEvents s = frameEvents s.cfg.cmdBw .bw s.fb ++ highlightFrame s.cfg s.fb := by
  rw [flushEvents, planeEvents_resident hs, highlightEvents_resident hs]

theorem flushEvents_onBus {s : State} {ws : List Word} (h : s.wf) (hw : s.Holds ws) :
    (flushEvents s).filter Event.onBus = frameEvents s.cfg.cmdBw .bw ws ++ highlightFrame s.cfg ws := by
  rw [flushEvents, List.filter_append, planeEvents_onBus h hw, highlightEvents_onBus h hw]

/-- In a well-formed state with IOEN = 1 a flush completes; CS and DC end at 1, PAGEBUF (external only) moves, its events are
appended, and nothing else changes (R170). -/
theorem exec_flush_of_wf {s : State} (h : s.wf) (hi : s.ioen = true) :
    ∃ buf, exec .flush s = .next { s with cs := true, dc := true, pagebuf := buf, trace := s.trace ++ flushEvents s }
      ∧ (s.cfg.store = .resident → buf = s.pagebuf) := by
  refine ⟨_, execFlush_eq h hi, fun hs => ?_⟩
  cases s.cfg.cmdHl <;> simp [planeBuffer, hs]

/-- Settles O53: each pass of a resident flush is the frame of the array. -/
theorem residentFlushEvents : Obligations.ResidentFlushEvents := by
  intro s h hi hs
  obtain ⟨buf, hrun, hbuf⟩ := exec_flush_of_wf h hi
  rw [hrun, hbuf hs, flushEvents_resident hs, ← List.append_assoc]
  simp only [frameEvents, highlightFrame, List.map_map]
  rfl

/-- Settles O52: the panel's reading and the transfers of a flush are those of its bus events (`flushEvents_onBus`). -/
theorem flushStreamsEveryWord : Obligations.FlushStreamsEveryWord := by
  intro s ws h hi hlen hpeek
  have hbus := flushEvents_onBus h ⟨hlen, hpeek⟩
  obtain ⟨buf, hrun, hbuf⟩ := exec_flush_of_wf h hi
  refine ⟨_, hrun, rfl, rfl, rfl, hbuf, ⟨_, rfl⟩, ?_, ?_⟩
  · rw [newEvents_of_append rfl, ← sentBytes_onBus, hbus, sentBytes_frameEvents]
    unfold highlightFrame
    cases s.cfg.cmdHl with
    | none => rfl
    | some cmd =>
      have hsecond := sentBytes_frameEvents true true cmd .hl ws []
      rw [List.append_nil] at hsecond
      exact congrArg (_ ++ ·) (hsecond.trans (List.append_nil _))
  · rw [newEvents_of_append rfl, ← transfers_onBus, hbus, List.filter_append, List.length_append, frameEvents_transfers]
    unfold highlightFrame
    cases s.cfg.cmdHl with
    | none => simp [hlen]
    | some cmd =>
      simp only [frameEvents_transfers, reduceCtorEq, if_false]
      omega

/-- Settles O55: the resident passes are the frames of the array, and the external ones the same frames with their chunk reads
between (`planeEvents_onBus`, `highlightEvents_onBus`). -/
theorem flushIsTheSameOnTheBusInBothStores : Obligations.FlushIsTheSameOnTheBusInBothStores := by
  intro s s' h h' hi hi' hs hs' hcfg hpeek
  obtain ⟨_, hrun, -⟩ := exec_flush_of_wf h hi
  obtain ⟨_, hrun', -⟩ := exec_flush_of_wf h' hi'
  obtain ⟨hlen, hfb⟩ := holds_fb h hs
  have hbw : s'.cfg.cmdBw = s.cfg.cmdBw := by rw [hcfg]
  have hhl : s'.cfg.cmdHl = s.cfg.cmdHl := by rw [hcfg]
  have hwords : s'.cfg.words = s.cfg.words := by rw [hcfg]; rfl
  have hw : s'.Holds s.fb := ⟨hlen.trans hwords.symm, fun a ha => (hpeek a).symm.trans (hfb a (hwords ▸ ha))⟩
  refine ⟨_, _, frameEvents s.cfg.cmdBw .bw s.fb, highlightFrame s.cfg s.fb, planeEvents s'.cfg.cmdBw .bw s', highlightEvents s',
    hrun, hrun', ?_, newEvents_of_append rfl, ?_, frameEvents_getLast? _ _ _, ?_, ?_, ?_, ?_, ?_⟩
  · rw [newEvents_of_append rfl, flushEvents_resident hs]
  · rw [frameEvents_transfers, hlen]
  · exact List.getLast?_concat
  · rw [planeEvents_onBus h' hw, hbw]
  · rw [highlightEvents_onBus h' hw]
    simp only [highlightFrame, hhl]
  · exact planeEvents_external_chunkReads h' hs' _ _
  · rw [highlightEvents_chunkReads h' hs', hhl]
    rfl

/-! ## Between two flushes -/

/-- No command among those still handed over is a draw. -/
def NoDraws (q : List Command) : Prop := ∀ cmd ∈ q, ∀ i, decode cmd = .ok i → i.opcode ∉ [Opcode.hline, Opcode.vline]

/-- `u` is a state in which a flush completes with the events it has in `s`, and in which no draw is handed over. -/
structure FlushesLike (s u : State) : Prop where
  wf : u.wf
  ioen : u.ioen = true
  cfg : u.cfg = s.cfg
  fb : u.fb = s.fb
  xm : u.xm = s.xm
  noDraws : NoDraws u.commands

/-- A flush reads the parameters and the store only. -/
theorem FlushesLike.flushEvents_eq {s u : State} (h : FlushesLike s u) : flushEvents u = flushEvents s := by
  simp only [flushEvents, highlightEvents, planeEvents, planeData, h.cfg, h.fb, h.xm]

section
variable {s u v : State}

theorem exec_keeps_wf {i : Instr} (h : u.wf) (hrun : exec i u = .next v) : v.wf := by
  rcases exec_wf i h with ⟨r, hr⟩ | ⟨w, hw, hwf⟩
  · rw [hr] at hrun
    cases hrun
  · rw [hw] at hrun
    cases hrun
    exact hwf

/-- An operation that is no draw leaves the parameters, the store and the commands. -/
theorem FlushesLike.exec {i : Instr} (h : FlushesLike s u) (hi : i.opcode ∉ [Opcode.hline, .vline])
    (hrun : exec i u = .next v) : FlushesLike s v := by
  obtain ⟨hcfg, -, -, hcommands, -, -, -, -, -, -, hstore, -⟩ := eachPieceIsWrittenOnlyByItsOperations i u v hrun
  obtain ⟨hfb, hxm⟩ := hstore hi
  exact ⟨exec_keeps_wf h.wf hrun, exec_keeps_ioen h.ioen hrun, hcfg.trans h.cfg, hfb.trans h.fb, hxm.trans h.xm,
    hcommands ▸ h.noDraws⟩

theorem FlushesLike.panelMove (h : FlushesLike s u) : FlushesLike s (panelMove u) := by
  obtain ⟨hwf, hioen, hcfg, hfb, hxm, hdraws⟩ := h
  rw [panelMove_eq]
  exact ⟨hwf, hioen, hcfg, hfb, hxm, hdraws⟩

theorem FlushesLike.busyWait (h : FlushesLike s u) : FlushesLike s (busyWait u) := by
  obtain ⟨hwf, hioen, hcfg, hfb, hxm, hdraws⟩ := h
  exact ⟨hwf, hioen, hcfg, hfb, hxm, hdraws⟩

/-- Taking the next command leaves fewer, none of them a draw. -/
theorem FlushesLike.setCommands {cmd : Command} {rest : List Command} (h : FlushesLike s u) (hq : u.commands = cmd :: rest) :
    FlushesLike s (u.setCommands rest) := by
  obtain ⟨hwf, hioen, hcfg, hfb, hxm, hdraws⟩ := h
  refine ⟨hwf, hioen, hcfg, hfb, hxm, fun c hc => hdraws c ?_⟩
  rw [hq]
  exact List.mem_cons_of_mem cmd hc

/-- A step that takes a command takes the next one, which is no draw. -/
theorem FlushesLike.step (h : FlushesLike s u) (hstep : step u = .next v) : FlushesLike s v := by
  rcases step_cases u with ⟨r, hr⟩ | ⟨w, hw, hcase⟩ | ⟨i, cmd, rest, hq, hdecode, -, -, hrun⟩
  · rw [hr] at hstep
    cases hstep
  · rw [hw] at hstep
    cases hstep
    rcases hcase with rfl | ⟨rfl, -⟩
    · exact h.panelMove
    · exact h.panelMove.busyWait
  · have hi := h.noDraws cmd (hq ▸ List.mem_cons_self) i hdecode
    exact (h.panelMove.setCommands ((panelMove_commands u).trans hq)).exec hi (hrun ▸ hstep)

theorem FlushesLike.run (n : Nat) (h : FlushesLike s u) (hrun : Sys2Proof.core.run n u = .next v) : FlushesLike s v := by
  induction n generalizing u with
  | zero =>
    cases hrun
    exact h
  | succ n ih =>
    obtain ⟨w, hstep, hrest⟩ := run_succ_next hrun
    exact ih (h.step hstep) hrest

end

/-- Settles O56: the first flush and every step after it lead to states that flush alike. -/
theorem flushTwiceEmitsTheSameEvents : Obligations.FlushTwiceEmitsTheSameEvents := by
  intro n s t u h hflush hdraws hrun
  have hgate : execFlush s = .next t := hflush
  obtain ⟨hi, -⟩ := whenConfigured_eq_next.1 hgate
  obtain ⟨-, -, -, hcommands, -⟩ := eachPieceIsWrittenOnlyByItsOperations .flush s t hflush
  have hs : FlushesLike s s := ⟨h, hi, rfl, rfl, rfl, hcommands ▸ hdraws⟩
  have hu := (hs.exec (by decide) hflush).run n hrun
  obtain ⟨_, hfirst, -⟩ := exec_flush_of_wf h hi
  obtain ⟨_, hsecond, -⟩ := exec_flush_of_wf hu.wf hu.ioen
  rw [hfirst] at hflush
  cases hflush
  exact ⟨_, hsecond, by rw [newEvents_of_append rfl, newEvents_of_append rfl, hu.flushEvents_eq]⟩

end Sys2Proof.Machine
end

section
/-! Proofs: INIT as a whole (spec 43_lifecycle.md R185, R186, R188, R189). -/

namespace Sys2Proof.Machine

/-- INIT always answers a next state (a hold is one too, log entry 6), and `execInit_next` says which. -/
theorem exec_init_eq (rp : Bool) (s : State) :
    exec (.init rp) s = .next { s with
      ioen := true
      rst := if rp then true else s.rst
      phase := if s.busy then .initWait else .idle
      trace := s.trace ++ if rp then [.pin .rst true, .delay 1, .pin .rst false, .delay 10, .pin .rst true] else [] } :=
  congrArg Host.Outcome.next (execInit_next (rp := rp) (s := s) rfl)

/-- Settles O57: `exec_init_eq` at each level of BUSY, without and with the pulse; without it nothing is appended to the trace. -/
theorem initConfiguresAndPulses : Obligations.InitConfiguresAndPulses := by
  intro s
  constructor
  · intro hb
    simp [exec_init_eq, hb]
  · intro hb
    simp [exec_init_eq, hb]

end Sys2Proof.Machine
end

section
/-! Proofs: an idle block without a command (spec 70_reset_and_hazards.md R222, 00_scope.md R6), and the highlight plane along a run
(70_reset_and_hazards.md R238). -/

namespace Sys2Proof.Machine

/-! ## Steps in which no command is taken -/

/-- An idle block with nothing handed over only lets the panel move (R222). -/
theorem step_of_no_command {s : State} (hw : s.cfg.wf = true) (hp : s.phase = .idle) (hq : s.commands = []) :
    step s = .next (panelMove s) := by
  simp [step, fetch_of_wf hw, accept, hp, hq]

/-- Parameters outside R6 are refused before anything else happens (D6). -/
theorem step_of_bad_configuration {s : State} (hw : s.cfg.wf = false) : step s = .refused .badConfiguration := by
  simp [step, fetch, hw]

/-- Settles O9: `step_of_no_command` with the panel's move written out, and the refusal of `step_of_bad_configuration`. -/
theorem idleBlockWaitsForTheHost : Obligations.IdleBlockWaitsForTheHost := by
  refine ⟨fun s hw hp hq => ?_, fun _ => step_of_bad_configuration⟩
  rw [step_of_no_command hw hp hq, panelMove_eq]

/-! ## The highlight bits of a word -/

/-- Every highlight bit (bits 15..8, R51) that is set in `v` is set in `u`. -/
def KeepsHighlightBits (v u : Word) : Prop := ∀ k, 8 ≤ k → v.getLsbD k = true → u.getLsbD k = true

theorem KeepsHighlightBits.refl (v : Word) : KeepsHighlightBits v v := fun _ _ h => h

theorem KeepsHighlightBits.trans {v u w : Word} (h : KeepsHighlightBits v u) (h' : KeepsHighlightBits u w) :
    KeepsHighlightBits v w := fun k hk hv => h' k hk (h k hk hv)

/-- The black/white mask has no bit in the high byte, whatever the row-in-word (R116, R117). -/
theorem Lanes.getLsbD_mask_bw (l : Lanes) {k : Nat} (hk : 8 ≤ k) : (l.mask .bw).getLsbD k = false := by
  cases l with
  | pixel j =>
    have hbit := getLsbD_oneBit (Plane.bit_lt .bw j) k
    have hne : k ≠ Plane.bit .bw j := by simp only [Plane.bit]; omega
    exact hbit.trans (decide_eq_false hne)
  | block =>
    have hbyte : (0x00FF#16).getLsbD k = (decide (k < 16) && (0xFF#8).getLsbD k) := BitVec.getLsbD_setWidth 16 0xFF#8 k
    have hhigh : (0xFF#8).getLsbD k = false := BitVec.getLsbD_of_ge _ k hk
    exact hbyte.trans (by rw [hhigh, Bool.and_false])

/-- BLACK, WHITE and INVERT work under the black/white mask, and HIGHLIGHT only sets bits (R116, R117). -/
theorem applyLanes_keepsHighlightBits (c : Colour) (l : Lanes) (v : Word) : KeepsHighlightBits v (applyLanes c l v) := by
  intro k hk hv
  have hmask := l.getLsbD_mask_bw hk
  have hlt : k < 16 := BitVec.lt_of_getLsbD hv
  cases c with
  | black => rw [applyLanes_black, BitVec.getLsbD_or, hv, Bool.true_or]
  | white => rw [applyLanes_white, BitVec.getLsbD_and, BitVec.getLsbD_not, hv, hmask, decide_eq_true hlt]; rfl
  | invert => rw [applyLanes_invert, BitVec.getLsbD_xor, hv, hmask, Bool.xor_false]
  | highlight => rw [applyLanes_highlight, BitVec.getLsbD_or, hv, Bool.true_or]

/-- Nothing a run does to a word clears a highlight bit, by induction on its read-modify-writes. -/
theorem wordAfter_keepsHighlightBits (c : Colour) (acc : List Access) (a : Nat) (v : Word) :
    KeepsHighlightBits v (wordAfter c acc a v) := by
  induction acc generalizing v with
  | nil => exact .refl v
  | cons x rest ih =>
    rw [wordAfter_cons]
    split_ifs
    · exact (applyLanes_keepsHighlightBits c x.lanes v).trans (ih _)
    · exact ih v

/-! ## The highlight bits of the store -/

/-- Every word of `s` is a word of `t`, and no highlight bit of it is cleared. -/
def State.KeepsHighlight (s t : State) : Prop :=
  ∀ a v, fbPeek s a = some v → ∃ u, fbPeek t a = some u ∧ KeepsHighlightBits v u

theorem State.KeepsHighlight.trans {s t u : State} (h : s.KeepsHighlight t) (h' : t.KeepsHighlight u) : s.KeepsHighlight u := by
  intro a v hv
  obtain ⟨w, hw, hvw⟩ := h a v hv
  obtain ⟨x, hx, hwx⟩ := h' a w hw
  exact ⟨x, hx, hvw.trans hwx⟩

/-- The framebuffer words are read from the parameters and the store (R70). -/
theorem fbPeek_of_same_store {s t : State} (hcfg : t.cfg = s.cfg) (hfb : t.fb = s.fb) (hxm : t.xm = s.xm) (a : Nat) :
    fbPeek t a = fbPeek s a := by
  simp only [fbPeek, hcfg, hfb, hxm]

theorem State.KeepsHighlight.of_same_store {s t : State} (hcfg : t.cfg = s.cfg) (hfb : t.fb = s.fb) (hxm : t.xm = s.xm) :
    s.KeepsHighlight t :=
  fun a v hv => ⟨v, (fbPeek_of_same_store hcfg hfb hxm a).trans hv, .refl v⟩

theorem AccessesApplied.keepsHighlight {c : Colour} {acc : List Access} {s t : State} (h : AccessesApplied c acc s t) :
    s.KeepsHighlight t := by
  intro a v hv
  exact ⟨wordAfter c acc a v, by rw [h.words, hv, Option.map_some], wordAfter_keepsHighlightBits c acc a v⟩

/-- A draw that completes runs its accesses (R112, R113). -/
theorem exec_draw_keepsHighlight {i : Instr} {c : Colour}
    (hi : (∃ x y n, i = .hline x y n c) ∨ ∃ x y n, i = .vline x y n c) {s t : State} (hwf : s.wf)
    (h : exec i s = .next t) : s.KeepsHighlight t := by
  obtain ⟨acc, hdraw⟩ := exec_draw_spec hi
  obtain ⟨u, hu, hA⟩ := hdraw s hwf
  cases hu.symm.trans h
  exact hA.keepsHighlight

/-- An operation that completes is a draw, or leaves the store as it was (R20). -/
theorem exec_keepsHighlight {i : Instr} {s t : State} (hwf : s.wf) (h : exec i s = .next t) : s.KeepsHighlight t := by
  by_cases hi : i.opcode ∈ [Opcode.hline, .vline]
  · cases i with
    | hline x y w c => exact exec_draw_keepsHighlight (.inl ⟨x, y, w, rfl⟩) hwf h
    | vline x y n c => exact exec_draw_keepsHighlight (.inr ⟨x, y, n, rfl⟩) hwf h
    | _ => simp [Instr.opcode] at hi
  · obtain ⟨hcfg, -, -, -, -, -, -, -, -, -, hstore, -⟩ := eachPieceIsWrittenOnlyByItsOperations i s t h
    obtain ⟨hfb, hxm⟩ := hstore hi
    exact .of_same_store hcfg hfb hxm

/-! ## Along a run -/

/-- What every step keeps, every run keeps. -/
theorem run_keeps {P : State → Prop} (hstep : ∀ s t, P s → step s = .next t → P t) (n : Nat) {s t : State} (hs : P s)
    (h : Sys2Proof.core.run n s = .next t) : P t := by
  induction n generalizing s with
  | zero =>
    cases h
    exact hs
  | succ n ih =>
    obtain ⟨u, hu, hrest⟩ := run_succ_next h
    exact ih (hstep s u hs hu) hrest

/-- `t` is well-formed and has every highlight bit that `s` has: the invariant of a run from `s`. -/
structure HighlightSince (s t : State) : Prop where
  wf : t.wf
  keeps : s.KeepsHighlight t

/-- Only the operation a step runs can touch the store; the panel, the wait and the taking of a command do not. -/
theorem HighlightSince.step {s t u : State} (h : HighlightSince s t) (hstep : step t = .next u) : HighlightSince s u := by
  refine step_keeps (P := HighlightSince s) (fun v hv => ⟨panelMove_wf hv.wf, hv.keeps.trans ?_⟩)
    (fun _ hv => ⟨hv.wf, hv.keeps⟩) (fun _ _ hv => ⟨hv.wf, hv.keeps⟩) ?_ h hstep
  · exact .of_same_store (panelMove_cfg v) (panelMove_fb v) (panelMove_xm v)
  · intro i v w hv hrun
    exact ⟨exec_keeps_wf hv.wf hrun, hv.keeps.trans (exec_keepsHighlight hv.wf hrun)⟩

/-- Settles O17: along the run the state stays well-formed and no step clears a highlight bit of the first state. -/
theorem highlightBitsAreNeverCleared : Obligations.HighlightBitsAreNeverCleared := by
  intro n s t hwf hrun
  have hstart : HighlightSince s s := ⟨hwf, .of_same_store rfl rfl rfl⟩
  exact (run_keeps (fun _ _ => HighlightSince.step) n hstart hrun).keeps

end Sys2Proof.Machine
end
